-- ==== Sys2Proof/Word.lean ====
section
/-! DEFINITION. The words of the block's interface (spec rule R7, last line: CPU memory address 16 bits, CPU I/O
port 8 bits as decoded, data 8 bits, MMR 8 bits; rule R60: request word 26 bits). -/

namespace Sys2Proof

/-- A data byte, and the MMR's width (R7, R20). -/
abbrev Byte := BitVec 8

/-- A CPU memory address, and the CPU's 16-bit I/O address before its low byte is taken (R60, R64). -/
abbrev Addr := BitVec 16

/-- An I/O port as the block decodes it (R41, R64). -/
abbrev Port := BitVec 8

/-- A `BUSREQ` request word (R60). -/
abbrev ReqWord := BitVec 26

end Sys2Proof
end

