-- ==== Sys2Proof/Config.lean ====
section
/-! DEFINITION. The configuration parameters of spec rule R7, fixed before the first request (decision D16).

`Config` is plain data, so that a statement over every state holds for every configuration and a test can write
one out. `Config.thisHardware` is the configuration `State.reset` starts from: the values the spec gives, and for
every parameter the spec leaves open an opaque constant, of which nothing can be proved (log entries 1 to 3). -/

namespace Sys2Proof

/-- The content of a byte array: the first listed cell for an offset, else `fill`. Every content of a finite array
can be written so. It is the form of the parameters `ROM`, `CART_ROM`, `RAM_INIT` and `VRAM_INIT` (R7). -/
structure Image where
  cells : List Host.Cell
  fill  : Byte
  deriving DecidableEq, Repr, Inhabited

/-- The parameter `MID_X_CELL`, 3 or 4 (R7, decision D5, conflict C1). -/
inductive MidXCell where
  | cell3
  | cell4
  deriving DecidableEq, Repr, Inhabited

/-- The number `MID_X_CELL` stands for. -/
def MidXCell.number : MidXCell → Fin 5
  | .cell3 => 3
  | .cell4 => 4

/-- The parameter `INVALID_LOW_POLICY` (R7, R103, decision D6). -/
inductive InvalidLowPolicy where
  | unmap
  | retain
  deriving DecidableEq, Repr, Inhabited

/-- The configuration parameters of R7. `VRAM_SIZE` and the two ROM sizes have one value each and stand below as
numbers. -/
structure Config where
  /-- `OPEN_BUS`: what a read of an unmapped address answers (R125). -/
  openBus          : Byte
  /-- `ROM`: the internal ROM, three banks of 0x8000 bytes (R29, R102). -/
  rom              : Image
  /-- `CART_ROM_PRESENT` (R102). -/
  cartRomPresent   : Bool
  /-- `CART_ROM` (R29); of a shorter image the bytes above its end are any fixed value (U5). -/
  cartRom          : Image
  /-- `RAM_SIZE` in bytes (R27). -/
  ramSize          : Nat
  /-- `MID_X_CELL` (R105). -/
  midXCell         : MidXCell
  /-- `INVALID_LOW_POLICY` (R103). -/
  invalidLowPolicy : InvalidLowPolicy
  /-- `MMR_POWERON` (R30). -/
  mmrPowerOn       : Byte
  /-- `RAM_INIT`: what main RAM holds until it is written (R30, R50). -/
  ramInit          : Image
  /-- `VRAM_INIT`: what video RAM holds until it is written (R30, R50). -/
  vramInit         : Image
  deriving DecidableEq, Repr

/-- The internal ROM's size in bytes (R7, R42). -/
abbrev romSize : Nat := 0x18000

/-- The cartridge ROM's size in bytes (R7, R42). -/
abbrev cartRomSize : Nat := 0x8000

/-- The video RAM's size in bytes, `VRAM_SIZE` (R7, R28). -/
abbrev vramSize : Nat := 0x2000

/-- The base machine's main RAM, 64 KiB (R27). -/
abbrev baseRamSize : Nat := 0x10000

/-- The main-RAM sizes that R27 admits beside a given `MID_X_CELL`. -/
abbrev ramSizeAdmitted (x : MidXCell) (size : Nat) : Prop :=
  size = baseRamSize ∨ (baseRamSize < size ∧ (x.number.val + 1) * 0x4000 ≤ size)

/-- A well-formed configuration (R27): no run of the machine starts from another one. -/
abbrev Config.Admitted (c : Config) : Prop := ramSizeAdmitted c.midXCell c.ramSize

/-! The open parameters of this hardware. Each is a constant without a body: a proof can use no value of it.
DESIGN CHOICE, log entry 1. -/

/-- `OPEN_BUS` is open (R7, decision D4). -/
opaque openBusDraw : Byte

/-- The content of `ROM` is a parameter (R7). -/
opaque romDraw : Image

/-- `CART_ROM_PRESENT` is a parameter (R7). -/
opaque cartRomPresentDraw : Bool

/-- The content of `CART_ROM` is a parameter (R7). -/
opaque cartRomDraw : Image

/-- `RAM_SIZE` is a parameter (R7); a draw that R27 refuses stands for the base machine. -/
opaque ramSizeDraw : Nat

/-- `MID_X_CELL` is open (R7, decision D5). -/
opaque midXCellDraw : MidXCell

/-- `MMR_POWERON` is a draw (R7, R30). -/
opaque mmrPowerOnDraw : Byte

/-- `RAM_INIT` is a draw (R7, R30). -/
opaque ramInitDraw : Image

/-- `VRAM_INIT` is a draw (R7, R30). -/
opaque vramInitDraw : Image

/-- A drawn main-RAM size, restricted to the sizes R27 admits: every admitted size is the image of itself, and no
other size is an image. DESIGN CHOICE, log entry 2. -/
def admittedRamSize (x : MidXCell) (draw : Nat) : Nat :=
  if ramSizeAdmitted x draw then draw else baseRamSize

/-- This hardware's configuration (R7): `INVALID_LOW_POLICY` is `UNMAP`, the rest is open. -/
def Config.thisHardware : Config where
  openBus          := openBusDraw
  rom              := romDraw
  cartRomPresent   := cartRomPresentDraw
  cartRom          := cartRomDraw
  ramSize          := admittedRamSize midXCellDraw ramSizeDraw
  midXCell         := midXCellDraw
  invalidLowPolicy := .unmap
  mmrPowerOn       := mmrPowerOnDraw
  ramInit          := ramInitDraw
  vramInit         := vramInitDraw

end Sys2Proof
end

