-- ==== Sys2Proof/Syntax.lean ====
section
/-! DEFINITION. The block's operations, one constructor for each row of spec/opcode_table.json (rule R69), and the
raw inputs they are decoded from (rules R60 and R61). -/

namespace Sys2Proof

/-- The operations of R69. Operands are those of R62 and of each operation's rule; bits the spec calls ignored are
no operands. -/
inductive Instr where
  /-- `MEM_RD(a)`: memory byte read (R120). -/
  | memRd (a : Addr)
  /-- `MEM_WR(a, d)`: memory byte write (R121). -/
  | memWr (a : Addr) (d : Byte)
  /-- `MMR_RD`: read the MMR (R80). -/
  | mmrRd
  /-- `MMR_WR(v)`: write the MMR (R81). -/
  | mmrWr (v : Byte)
  /-- `IO_RD_NOSEL(p)`: I/O read of a port other than 0x30 (R86). -/
  | ioRdNosel (p : Port)
  /-- `IO_WR_NOSEL(p, d)`: I/O write to a port other than 0x30 (R86). -/
  | ioWrNosel (p : Port) (d : Byte)
  /-- `RESET`: the machine-reset event (R160). -/
  | reset
  deriving DecidableEq, Repr

/-- One raw input of the block: a request word (format `BUSREQ`, R60) or the level of the one-bit reset input
(format `SIGNAL`, R61). -/
inductive Frame where
  | busreq (w : ReqWord)
  | signal (b : BitVec 1)
  deriving DecidableEq, Repr

end Sys2Proof
end

