-- ==== Sys2Proof/WellFormed.lean ====
section
/-! DEFINITION. Which terms of the syntax stand for an operation of the spec, and which configurations are
admitted (`Config.Admitted` of Config.lean, rule R27). -/

namespace Sys2Proof

/-- The one port the block claims (R41). -/
def mmrPort : Port := 0x30#8

/-- A well-formed operation: the port of a `_NOSEL` operation is not 0x30 (R86, "`p != 0x30`"); every other
operation is well formed with every operand (R65). -/
def Instr.wellFormed : Instr → Bool
  | .memRd _ => true
  | .memWr _ _ => true
  | .mmrRd => true
  | .mmrWr _ => true
  | .ioRdNosel p => p != mmrPort
  | .ioWrNosel p _ => p != mmrPort
  | .reset => true

end Sys2Proof
end

