-- ==== Sys2Proof/Decode.lean ====
section
/-! DEFINITION. The decoder of rule R62, the encoder written from the same formats, the opcode table's rows as data,
and the text syntax of rule R70. -/

namespace Sys2Proof

/-! ## The fields of a request word (R60, R62) -/

/-- `w[25:24]`. -/
def reqOp (w : ReqWord) : BitVec 2 := w.extractLsb' 24 2

/-- `w[23:8]`. -/
def reqA (w : ReqWord) : Addr := w.extractLsb' 8 16

/-- `w[7:0]`. -/
def reqD (w : ReqWord) : Byte := w.extractLsb' 0 8

/-- The port number is the low byte of the I/O address; the high byte is ignored (R64). -/
def portOf (a : Addr) : Port := a.extractLsb' 0 8

/-! ## Decoding -/

/-- Why a frame is no operation. -/
inductive FrameReject where
  /-- The reset input is not raised: there is no event (R61). -/
  | noEvent
  deriving DecidableEq, Repr

/-- R62: every request word names exactly one of the six operations. -/
def decodeBusreq (w : ReqWord) : Instr :=
  if reqOp w = 0b00#2 then .memRd (reqA w)
  else if reqOp w = 0b01#2 then .memWr (reqA w) (reqD w)
  else if reqOp w = 0b10#2 then
    if portOf (reqA w) = mmrPort then .mmrRd else .ioRdNosel (portOf (reqA w))
  else
    if portOf (reqA w) = mmrPort then .mmrWr (reqD w) else .ioWrNosel (portOf (reqA w)) (reqD w)

/-- The whole decoder: request words by R62, the reset input by R61. -/
def decode : Frame → Except FrameReject Instr
  | .busreq w => .ok (decodeBusreq w)
  | .signal b => if b = 1#1 then .ok .reset else .error .noEvent

/-! ## Bits from outside -/

/-- Why a number of bits is no frame. -/
inductive FormatReject where
  /-- No format has this width: `BUSREQ` is 26 bits (32 in whole bytes), `SIGNAL` 1 bit (8 in whole bytes). -/
  | unknownWidth (nbits : Nat)
  /-- A bit above the format's own width is set. -/
  | bitsAboveFormat (w : Nat)
  deriving DecidableEq, Repr

/-- The frame that `nbits` bits `w` are, numbered as spec/opcode_table.json numbers them. -/
def frameOfBits (nbits w : Nat) : Except FormatReject Frame :=
  if nbits = 32 ∨ nbits = 26 then
    if w < 2 ^ 26 then .ok (.busreq (BitVec.ofNat 26 w)) else .error (.bitsAboveFormat w)
  else if nbits = 8 ∨ nbits = 1 then
    if w < 2 then .ok (.signal (BitVec.ofNat 1 w)) else .error (.bitsAboveFormat w)
  else .error (.unknownWidth nbits)

/-- The operation the decoder reads from `nbits` bits `w`; `none` where there is no frame or no operation. -/
def decodeTableWord (nbits w : Nat) : Option Instr :=
  match frameOfBits nbits w with
  | .error _ => none
  | .ok f =>
    match decode f with
    | .error _ => none
    | .ok i => some i

/-! ## Encoding -/

/-- A request word from its three fields (R60). -/
def packReq (op : BitVec 2) (a : Addr) (d : Byte) : ReqWord := op ++ a ++ d

/-- The I/O address of a port: the ignored high byte is zero (R64). -/
def ioAddr (p : Port) : Addr := 0#8 ++ p

/-- The frame of a well-formed operation (R60 to R62); ignored bits are zero. -/
def encode : Instr → Frame
  | .memRd a => .busreq (packReq 0b00#2 a 0#8)
  | .memWr a d => .busreq (packReq 0b01#2 a d)
  | .mmrRd => .busreq (packReq 0b10#2 (ioAddr mmrPort) 0#8)
  | .mmrWr v => .busreq (packReq 0b11#2 (ioAddr mmrPort) v)
  | .ioRdNosel p => .busreq (packReq 0b10#2 (ioAddr p) 0#8)
  | .ioWrNosel p d => .busreq (packReq 0b11#2 (ioAddr p) d)
  | .reset => .signal 1#1

/-! ## The opcode table's `BUSREQ` rows -/

/-- One `BUSREQ` row of spec/opcode_table.json. -/
structure OpcodeRow where
  mnemonic : String
  bits     : ReqWord
  mask     : ReqWord
  deriving DecidableEq, Repr

/-- The row a word matches. -/
def OpcodeRow.admits (r : OpcodeRow) (w : ReqWord) : Bool := w &&& r.mask == r.bits

/-- The table's six `BUSREQ` rows in its own order: a word that matches two rows is the earlier one's ("MMR_RD takes
precedence", "MMR_WR takes precedence"). -/
def opcodeTable : List OpcodeRow :=
  [ ⟨"MEM_RD", 0x0000000#26, 0x3000000#26⟩
  , ⟨"MEM_WR", 0x1000000#26, 0x3000000#26⟩
  , ⟨"MMR_RD", 0x2003000#26, 0x300FF00#26⟩
  , ⟨"MMR_WR", 0x3003000#26, 0x300FF00#26⟩
  , ⟨"IO_RD_NOSEL", 0x2000000#26, 0x3000000#26⟩
  , ⟨"IO_WR_NOSEL", 0x3000000#26, 0x3000000#26⟩ ]

/-- An operation's mnemonic in spec/opcode_table.json. -/
def Instr.mnemonic : Instr → String
  | .memRd _ => "MEM_RD"
  | .memWr _ _ => "MEM_WR"
  | .mmrRd => "MMR_RD"
  | .mmrWr _ => "MMR_WR"
  | .ioRdNosel _ => "IO_RD_NOSEL"
  | .ioWrNosel _ _ => "IO_WR_NOSEL"
  | .reset => "RESET"

/-! ## The text syntax (R70) -/

/-- One upper-case hexadecimal digit. -/
def hexDigit (n : BitVec 4) : Char :=
  ['0', '1', '2', '3', '4', '5', '6', '7', '8', '9', 'A', 'B', 'C', 'D', 'E', 'F'].getD n.toNat '0'

/-- A byte in two digits, "hexadecimal without prefix" (R70). -/
def hexByte (b : Byte) : List Char := [hexDigit (b.extractLsb' 4 4), hexDigit (b.extractLsb' 0 4)]

/-- An address in four digits. -/
def hexAddr (a : Addr) : List Char := hexByte (a.extractLsb' 8 8) ++ hexByte (a.extractLsb' 0 8)

/-- The text of an operation (R70). -/
def Instr.text : Instr → List Char
  | .memRd a => ['M', 'R', 'D', ' '] ++ hexAddr a
  | .memWr a d => ['M', 'W', 'R', ' '] ++ hexAddr a ++ [',', ' '] ++ hexByte d
  | .mmrRd => ['I', 'N', ' '] ++ hexByte mmrPort
  | .mmrWr v => ['O', 'U', 'T', ' '] ++ hexByte mmrPort ++ [',', ' '] ++ hexByte v
  | .ioRdNosel p => ['I', 'N', ' '] ++ hexByte p
  | .ioWrNosel p d => ['O', 'U', 'T', ' '] ++ hexByte p ++ [',', ' '] ++ hexByte d
  | .reset => ['R', 'E', 'S', 'E', 'T']

/-- The pseudo-request `SETMAP v` (R70). -/
def setmap (v : Byte) : List Frame := [encode (.mmrWr v)]

/-- The pseudo-request `REMAP v` (R70, R164). -/
def remap (v : Byte) : List Frame := [encode (.mmrWr (v ^^^ 0x80#8)), encode (.mmrWr v)]

end Sys2Proof
end

