-- ==== Sys2Proof/Machine/State.lean ====
section
/-! DEFINITION. The block's state (spec 10_state.md), its input and output as plain data, the reasons a step can
stop, and the state after power-on and reset. -/

namespace Sys2Proof.Machine

/-- `LowSel` (R11): what is installed in the low window. -/
inductive LowSel where
  | rom0
  | rom1
  | rom2
  | cartrom
  | ramLo
  | ramHi
  | unmapped
  deriving DecidableEq, Repr

/-- `MidSel` (R11): what is installed in the mid window. -/
inductive MidSel where
  | cell (n : Fin 5)
  | unmapped
  deriving DecidableEq, Repr

/-- `HighSel` (R11): what is installed in the high window. -/
inductive HighSel where
  | mainram
  | video
  deriving DecidableEq, Repr

/-- The four windows of the CPU memory space (R40). -/
inductive Window where
  | low
  | mid
  | high
  | top
  deriving DecidableEq, Repr

/-- `Target` (R11): one byte of a physical store, or nothing. -/
inductive Target where
  | rom (off : Nat)
  | cart (off : Nat)
  | ram (off : Nat)
  | vram (off : Nat)
  | none
  deriving DecidableEq, Repr

/-- The access right a target is paired with (R11). -/
inductive Right where
  | ro
  | rw
  deriving DecidableEq, Repr

/-- The block's answer to the input served last (R60: "A read request's answer is one byte returned on the request's
response"). -/
inductive Answer where
  /-- No byte is answered: a write, a reset, or nothing served yet. -/
  | none
  /-- The byte a read answers (R80, R120). -/
  | data (b : Byte)
  /-- The block drives no data; the byte comes from another block (R86). -/
  | notDriven
  deriving DecidableEq, Repr

/-- The advisory diagnostic event (R143), with the MMR value it carries. -/
inductive Diag where
  | invalidLow (v : Byte)
  deriving DecidableEq, Repr

/-- The contents of a writable store: the bytes that differ from what an unlisted offset reads as, by rising offset
(`Memory.wf`, Machine/Ops.lean). -/
abbrev Memory := List Host.Cell

/-- Why the machine stops. -/
inductive Fault where
  /-- Raised by a memory request whose target lies outside its store. The spec's store primitives are defined only
  inside the store (R10), and from an admitted configuration no request reaches this (R127). Safe. -/
  | offsetOutsideStore (t : Target)
  deriving DecidableEq, Repr

/-- Why an operation has no meaning. -/
inductive Refusal where
  /-- Raised by exec for an operation whose meaning is not written yet; no arm raises it. Safe. -/
  | notModelled (mnemonic : String)
  deriving DecidableEq, Repr

/-- The whole state. The spec's elements are those of R30: `mmr`, the three selections and the contents of the two
writable buffers; `cfg` holds the parameters the spec's model "takes as arguments" (R7); the last three fields are the
interface's (log entry 4). -/
structure State where
  /-- The parameters, which no step changes (R7, R29). -/
  cfg     : Config
  /-- The Memory Mapping Register, 8 bits (R20). -/
  mmr     : Byte
  /-- The low window's installed selection (R24). -/
  lowsel  : LowSel
  /-- The mid window's installed selection (R24). -/
  midsel  : MidSel
  /-- The high window's installed selection (R24). -/
  highsel : HighSel
  /-- The main RAM buffer, `RAM_SIZE` bytes (R27). -/
  ram     : Memory
  /-- The video RAM buffer, 0x2000 bytes (R28). -/
  vram    : Memory
  /-- Input: the requests and reset events not served yet, oldest first (R4, R50). -/
  pending : List Frame
  /-- Output: the answer to the input served last (R60). -/
  answer  : Answer
  /-- Output: the history of the diagnostic events, oldest first (R143). -/
  diags   : List Diag
  deriving DecidableEq, Repr

/-- The state after power-on and the reset that follows it (R30, R162), for any configuration: the MMR holds
`MMR_POWERON`, the selections are those of the value 0, both buffers hold their initial contents. No input is
pending. DESIGN CHOICE, log entries 4 and 5. -/
def State.powerOn (c : Config) : State where
  cfg     := c
  mmr     := c.mmrPowerOn
  lowsel  := .rom0
  midsel  := .cell 0
  highsel := .mainram
  ram     := []
  vram    := []
  pending := []
  answer  := .none
  diags   := []

/-- The machine right after reset, with this hardware's configuration. -/
def State.reset : State := State.powerOn Config.thisHardware

end Sys2Proof.Machine
end

