-- ==== Sys2Proof/Machine/Operands.lean ====
section
/-! DEFINITION. The fields of an MMR value (rule R66), the windows (R40, R68), the per-window decoders (R101 to R106)
and the translation of a CPU address (R123). -/

namespace Sys2Proof.Machine

/-! ## The fields of an MMR value (R20, R66)

The places of `rom_bank` and `mid_window_source` are the spec's own choice (D1): DESIGN CHOICE, log entry 6. -/

/-- `v[1:0]`. -/
def romBank (v : Byte) : BitVec 2 := v.extractLsb' 0 2

/-- `v[3:2]`. -/
def lowSource (v : Byte) : BitVec 2 := v.extractLsb' 2 2

/-- `v[5:4]`. -/
def midSource (v : Byte) : BitVec 2 := v.extractLsb' 4 2

/-- `v[6]`. -/
def video (v : Byte) : Bool := v.getLsbD 6

/-! ## What an MMR value installs (R101 to R106)

The policy, the expansion and its cell are the spec's own choices (D5 to D7): DESIGN CHOICE, log entries 8 and 14. -/

/-- The RAM expansion is present exactly when main RAM exceeds the base 64 KiB (R27). -/
def expansionPresent (c : Config) : Bool := decide (baseRamSize < c.ramSize)

/-- `low_decode` with source 0: an internal ROM bank, or the cartridge ROM if there is one (R102). -/
def romDecode (c : Config) (bank : BitVec 2) : LowSel :=
  if bank = 0#2 then .rom0
  else if bank = 1#2 then .rom1
  else if bank = 2#2 then .rom2
  else if c.cartRomPresent then .cartrom
  else .unmapped

/-- `low_decode` (R101): `none` is the spec's KEEP, which only the policy RETAIN of R103 gives. -/
def lowDecode (c : Config) (v : Byte) : Option LowSel :=
  if lowSource v = 0#2 then some (romDecode c (romBank v))
  else if lowSource v = 1#2 then some .ramLo
  else if lowSource v = 2#2 then some .ramHi
  else
    match c.invalidLowPolicy with
    | .unmap => some .unmapped
    | .retain => none

/-- `mid_decode` (R104, R105). -/
def midDecode (c : Config) (v : Byte) : MidSel :=
  if midSource v = 0#2 then .cell 0
  else if midSource v = 1#2 then .cell 1
  else if midSource v = 2#2 then .cell 2
  else if expansionPresent c then .cell c.midXCell.number
  else .unmapped

/-- `high_decode` (R106). -/
def highDecode (v : Byte) : HighSel := if video v then .video else .mainram

/-! ## Windows (R40, R68) -/

/-- The window of an address by the bounds of R40. -/
def windowOf (a : Addr) : Window :=
  if a.toNat ≤ 0x7FFF then .low
  else if a.toNat ≤ 0xBFFF then .mid
  else if a.toNat ≤ 0xE7FF then .high
  else .top

/-- The window of an address by its top five bits, as R68 writes it. -/
def windowOfBits (a : Addr) : Window :=
  if a.getLsbD 15 = false then .low
  else if a.getLsbD 14 = false then .mid
  else if a.extractLsb' 11 3 ≤ 0b100#3 then .high
  else .top

/-- A window's first CPU address (R40). -/
def Window.base : Window → Nat
  | .low => 0x0000
  | .mid => 0x8000
  | .high => 0xC000
  | .top => 0xE800

/-- A window's size in bytes (R8, R40). -/
def Window.size : Window → Nat
  | .low => 0x8000
  | .mid => 0x4000
  | .high => 0x2800
  | .top => 0x1800

/-! ## Translation (R123)

The layouts of the ROMs and of video RAM are the spec's own choices (D8 to D10): DESIGN CHOICE, log entry 13. -/

/-- The low window's target for CPU address `a`. -/
def lowTarget (sel : LowSel) (a : Nat) : Target :=
  match sel with
  | .rom0 => .rom (0x00000 + a)
  | .rom1 => .rom (0x08000 + a)
  | .rom2 => .rom (0x10000 + a)
  | .cartrom => .cart a
  | .ramLo => .ram a
  | .ramHi => .ram (0x8000 + a)
  | .unmapped => .none

/-- The mid window's target for CPU address `a`. -/
def midTarget (sel : MidSel) (a : Nat) : Target :=
  match sel with
  | .cell n => .ram (n.val * 0x4000 + (a - 0x8000))
  | .unmapped => .none

/-- The high window's target for CPU address `a`. -/
def highTarget (sel : HighSel) (a : Nat) : Target :=
  match sel with
  | .mainram => .ram a
  | .video => if a ≤ 0xDFFF then .vram (a - 0xC000) else .none

/-- `route(a)` (R123): the physical target of a CPU address under the installed selections. -/
def route (s : State) (a : Addr) : Target :=
  match windowOf a with
  | .low => lowTarget s.lowsel a.toNat
  | .mid => midTarget s.midsel a.toNat
  | .high => highTarget s.highsel a.toNat
  | .top => .ram a.toNat

/-- The access right a target carries (R11, R123). -/
def Target.right : Target → Option Right
  | .rom _ => some .ro
  | .cart _ => some .ro
  | .ram _ => some .rw
  | .vram _ => some .rw
  | .none => Option.none

/-- The target lies inside its store (R10, R127). -/
def Target.inStore (c : Config) : Target → Bool
  | .rom off => decide (off < romSize)
  | .cart off => decide (off < cartRomSize)
  | .ram off => decide (off < c.ramSize)
  | .vram off => decide (off < vramSize)
  | .none => true

/-! ## The suggested binary codes of the selections (R26); nothing observable depends on them -/

/-- `lowsel` in three bits; 7 is never used. -/
def LowSel.code : LowSel → BitVec 3
  | .rom0 => 0#3
  | .rom1 => 1#3
  | .rom2 => 2#3
  | .cartrom => 3#3
  | .ramLo => 4#3
  | .ramHi => 5#3
  | .unmapped => 6#3

/-- `midsel` in three bits; 5 and 7 are never used. -/
def MidSel.code : MidSel → BitVec 3
  | .cell n => BitVec.ofNat 3 n.val
  | .unmapped => 6#3

/-- `highsel` in one bit. -/
def HighSel.code : HighSel → BitVec 1
  | .mainram => 0#1
  | .video => 1#1

end Sys2Proof.Machine
end

