-- ==== Sys2Proof/Machine/Flags.lean ====
section
/-! DEFINITION. The block has no status flag, condition code or predicate (rule R23): no operation sets or reads one.
The one event in their place is the advisory diagnostic of an invalid low-window source (rules R103 and R143). -/

namespace Sys2Proof.Machine

/-- The diagnostic events one run of `resolve_banks(v)` emits: one `INVALID_LOW`, carrying `v`, exactly when
`low_source(v) = 3` (R100, R143). -/
def diagnosticsOf (v : Byte) : List Diag :=
  if lowSource v = 3#2 then [.invalidLow v] else []

end Sys2Proof.Machine
end

