-- ==== Sys2Proof/Machine/Ops.lean ====
section
/-! DEFINITION. The named operations over the stores and the selections: reading and writing one byte of a store
(rule R10), a CPU read and write through a target (R120, R121), and `resolve_banks` (R100).

Taking an exception and returning from one have no operation here: the block raises none, saves nothing and has no
vector and no return (R140, R147). -/

namespace Sys2Proof

/-- The cell a list gives an offset. -/
def cellAt : List Host.Cell → Nat → Option Byte
  | [], _ => none
  | (o, b) :: m, off => if off = o then some b else cellAt m off

/-- One byte of an image. -/
def Image.byte (im : Image) (off : Nat) : Byte := (cellAt im.cells off).getD im.fill

end Sys2Proof

namespace Sys2Proof.Machine

/-! ## Writable stores in canonical form -/

/-- The canonical form of a store of `size` bytes whose initial content is `init`: offsets strictly rising and inside
the store, and no entry equal to what an unlisted offset reads as. -/
abbrev Memory.wf (size : Nat) (init : Image) (m : Memory) : Prop :=
  m.Pairwise (fun x y => x.1 < y.1) ∧ ∀ c ∈ m, c.1 < size ∧ c.2 ≠ init.byte c.1

/-- What an offset reads as: the listed byte, else the initial content ("or the store's initial content if there was
none", R50). This is the one definition of what an unlisted offset reads as. DESIGN CHOICE of the form, log entry 3. -/
def Memory.read (init : Image) (m : Memory) (off : Nat) : Byte := (cellAt m off).getD (init.byte off)

/-- List `off` with the byte `v`. -/
def Memory.put : Memory → Nat → Byte → Memory
  | [], off, v => [(off, v)]
  | (o, b) :: m, off, v =>
    if off < o then (off, v) :: (o, b) :: m
    else if off = o then (off, v) :: m
    else (o, b) :: Memory.put m off v

/-- Unlist `off`. -/
def Memory.unlist : Memory → Nat → Memory
  | [], _ => []
  | (o, b) :: m, off => if off = o then m else (o, b) :: Memory.unlist m off

/-- Write one byte, keeping the canonical form: writing the initial content unlists the offset. -/
def Memory.write (init : Image) (m : Memory) (off : Nat) (v : Byte) : Memory :=
  if v = init.byte off then Memory.unlist m off else Memory.put m off v

/-! ## The spec's store primitives (R10) -/

/-- `RamRead(off)`. -/
def ramRead (s : State) (off : Nat) : Byte := Memory.read s.cfg.ramInit s.ram off

/-- `VramRead(off)`. -/
def vramRead (s : State) (off : Nat) : Byte := Memory.read s.cfg.vramInit s.vram off

/-- `RamWrite(off, v)`. -/
def ramWrite (s : State) (off : Nat) (v : Byte) : State :=
  { s with ram := Memory.write s.cfg.ramInit s.ram off v }

/-- `VramWrite(off, v)`. -/
def vramWrite (s : State) (off : Nat) (v : Byte) : State :=
  { s with vram := Memory.write s.cfg.vramInit s.vram off v }

/-! ## Access through a target (R120, R121) -/

/-- The byte a read of a target answers (R120); nothing there is open bus (R125). -/
def targetByte (s : State) : Target → Byte
  | .rom off => s.cfg.rom.byte off
  | .cart off => s.cfg.cartRom.byte off
  | .ram off => ramRead s off
  | .vram off => vramRead s off
  | .none => s.cfg.openBus

/-- The state a write to a target leaves (R121); a write to ROM, cartridge ROM or nothing is dropped (R126). -/
def targetWrite (s : State) (t : Target) (d : Byte) : State :=
  match t with
  | .rom _ => s
  | .cart _ => s
  | .ram off => ramWrite s off d
  | .vram off => vramWrite s off d
  | .none => s

/-- An access goes on inside the store and stops outside it, where R10 defines no primitive.
DEDUCED, log entry 10. -/
def accessing (s : State) (t : Target) (s' : State) : Host.Outcome State Fault Refusal :=
  if t.inStore s.cfg then .next s' else .fault (.offsetOutsideStore t)

/-! ## Answers and selections -/

/-- The state with the block's answer. -/
def respond (s : State) (r : Answer) : State := { s with answer := r }

/-- `resolve_banks(v)` (R100): each window is decoded from its own fields and installed, and the diagnostic of an
invalid low source is emitted. -/
def resolveBanks (s : State) (v : Byte) : State :=
  { s with
    lowsel  := (lowDecode s.cfg v).getD s.lowsel
    midsel  := midDecode s.cfg v
    highsel := highDecode v
    diags   := s.diags ++ diagnosticsOf v }

/-- `set_mmr(v)` (R81): nothing when `v` equals the MMR, else the MMR takes `v` and the banks are resolved anew. -/
def setMmr (s : State) (v : Byte) : State :=
  if v = s.mmr then s else resolveBanks { s with mmr := v } v

end Sys2Proof.Machine
end

