-- ==== Sys2Proof/Machine/MmrRegister.lean ====
section
/-! DEFINITION. I/O requests: the MMR at port 0x30 (rules R80 and R81) and every other port (rule R86). -/

namespace Sys2Proof.Machine

/-- `MMR_RD` (R80, decision D19, log entry 22): all eight bits as last set, no side effect. -/
def execMmrRd (s : State) : Host.Outcome State Fault Refusal :=
  .next (respond s (.data s.mmr))

/-- `MMR_WR(v)` (R81): compare, write and resolve in one step. -/
def execMmrWr (v : Byte) (s : State) : Host.Outcome State Fault Refusal :=
  .next (respond (setMmr s v) .none)

/-- `IO_RD_NOSEL(p)` (R86, decision D21, log entry 9): no state read or written; the block drives no data. -/
def execIoRdNosel (_p : Port) (s : State) : Host.Outcome State Fault Refusal :=
  .next (respond s .notDriven)

/-- `IO_WR_NOSEL(p, d)` (R86): no state read or written. -/
def execIoWrNosel (_p : Port) (_d : Byte) (s : State) : Host.Outcome State Fault Refusal :=
  .next (respond s .none)

end Sys2Proof.Machine
end

