-- ==== Sys2Proof/Machine/Reset.lean ====
section
/-! DEFINITION. The machine-reset event (rule R160). -/

namespace Sys2Proof.Machine

/-- `RESET` (R160): a forced resolution of the value 0, whatever the MMR holds; the MMR and the memory contents keep
their values. -/
def execReset (s : State) : Host.Outcome State Fault Refusal :=
  .next (respond (resolveBanks s 0x00#8) .none)

end Sys2Proof.Machine
end

