-- ==== Sys2Proof/Machine/WindowAccess.lean ====
section
/-! DEFINITION. Memory requests through the windows (rules R120 and R121). An instruction fetch is a memory read like
any other (R122). -/

namespace Sys2Proof.Machine

/-- `MEM_RD(a)` (R120). -/
def execMemRd (a : Addr) (s : State) : Host.Outcome State Fault Refusal :=
  accessing s (route s a) (respond s (.data (targetByte s (route s a))))

/-- `MEM_WR(a, d)` (R121). -/
def execMemWr (a : Addr) (d : Byte) (s : State) : Host.Outcome State Fault Refusal :=
  accessing s (route s a) (respond (targetWrite s (route s a) d) .none)

end Sys2Proof.Machine
end

