-- ==== Sys2Proof/Machine/Dispatch.lean ====
section
/-! DEFINITION. One arm per operation, each one call of its meaning. -/

namespace Sys2Proof.Machine

def exec (i : Instr) (s : State) : Host.Outcome State Fault Refusal :=
  match i with
  | .memRd a => Sys2Proof.Machine.execMemRd a s
  | .memWr a d => Sys2Proof.Machine.execMemWr a d s
  | .mmrRd => Sys2Proof.Machine.execMmrRd s
  | .mmrWr v => Sys2Proof.Machine.execMmrWr v s
  | .ioRdNosel p => Sys2Proof.Machine.execIoRdNosel p s
  | .ioWrNosel p d => Sys2Proof.Machine.execIoWrNosel p d s
  | .reset => Sys2Proof.Machine.execReset s

end Sys2Proof.Machine
end

