-- ==== Sys2Proof/Machine/Step.lean ====
section
/-! DEFINITION. One step: the oldest pending input is taken, decoded and served (rules R4, R50, R62). -/

namespace Sys2Proof.Machine

/-- The state with the input still pending replaced. -/
def State.withPending (s : State) (fs : List Frame) : State := { s with pending := fs }

/-- One step (R50: "one at a time, in the order the CPU issues them"). With no input the block "takes no step of its
own" (R4): nothing changes. A reset input that is not raised is no event (R61): it passes without effect.
DEDUCED, log entry 7. -/
def step (s : State) : Host.Outcome State Fault Refusal :=
  match s.pending with
  | [] => .next s
  | f :: rest =>
    match decode f with
    | .ok i => exec i (s.withPending rest)
    | .error .noEvent => .next (s.withPending rest)

/-- The state whose next input is the frame that `nbits` bits `w` are; unchanged where they are no frame. -/
def State.withFetchWord (s : State) (nbits w : Nat) : State :=
  match frameOfBits nbits w with
  | .ok f => s.withPending (f :: s.pending)
  | .error _ => s

end Sys2Proof.Machine
end

