-- ==== Sys2Proof/Safety.lean ====
section
/-! DEFINITION. The terms the statements use: which states a run can be in, what a mapping is explained by, and the
spec's tables of aliases and ignored bits as predicates. -/

namespace Sys2Proof.Machine

/-! ## States a run can be in -/

/-- What can be installed in the low window under a configuration: the cartridge ROM only when it is present (R102),
nothing only by the policy UNMAP (R103) or for want of a cartridge (R102). -/
def lowPossible (c : Config) : LowSel → Bool
  | .rom0 => true
  | .rom1 => true
  | .rom2 => true
  | .cartrom => c.cartRomPresent
  | .ramLo => true
  | .ramHi => true
  | .unmapped => c.invalidLowPolicy == .unmap || !c.cartRomPresent

/-- What can be installed in the mid window under a configuration: cells 0 to 2, the cell `MID_X_CELL` only with the
expansion present (R26, R105), nothing only without it. -/
def midPossible (c : Config) : MidSel → Bool
  | .cell n => decide (n.val ≤ 2) || (expansionPresent c && n == c.midXCell.number)
  | .unmapped => !expansionPresent c

/-- The invariant of a run: the configuration is admitted (R27), the selections are ones it can install, and both
writable stores are in canonical form and inside their sizes. -/
structure State.Inv (s : State) : Prop where
  config : s.cfg.Admitted
  low    : lowPossible s.cfg s.lowsel = true
  mid    : midPossible s.cfg s.midsel = true
  ram    : Memory.wf s.cfg.ramSize s.cfg.ramInit s.ram
  vram   : Memory.wf vramSize s.cfg.vramInit s.vram

/-- The three selections are those `resolve_banks(v)` installs. A low source that the policy RETAIN passes over
leaves the low window open. -/
def State.MappingOf (s : State) (v : Byte) : Prop :=
  (lowDecode s.cfg v).getD s.lowsel = s.lowsel ∧ s.midsel = midDecode s.cfg v ∧ s.highsel = highDecode v

/-- The mapping is that of the MMR's value, or that of 0 after a reset (R25). -/
def State.MappingExplained (s : State) : Prop := s.MappingOf s.mmr ∨ s.MappingOf 0x00#8

/-! ## Relations between states -/

/-- Two states have the same three selections. -/
def State.SameMapping (s t : State) : Prop :=
  t.lowsel = s.lowsel ∧ t.midsel = s.midsel ∧ t.highsel = s.highsel

/-- Every byte of main RAM and of video RAM reads the same. -/
def State.SameBytes (s t : State) : Prop :=
  (∀ off, ramRead t off = ramRead s off) ∧ ∀ off, vramRead t off = vramRead s off

/-- A state with its diagnostic history left out. -/
def State.withoutDiags (s : State) : State := { s with diags := [] }

/-- An outcome with the diagnostic history of its next state left out. -/
def outcomeWithoutDiags : Host.Outcome State Fault Refusal → Host.Outcome State Fault Refusal
  | .next s => .next s.withoutDiags
  | .fault r => .fault r
  | .refused r => .refused r

/-- Serve operations one after the other, stopping at the first that stops. -/
def execAll : List Instr → State → Host.Outcome State Fault Refusal
  | [], s => .next s
  | i :: is, s =>
    match exec i s with
    | .next t => execAll is t
    | .fault r => .fault r
    | .refused r => .refused r

/-! ## The alias table (R49) -/

/-- The rows of R49, in its order: CPU address `a` reaches main-RAM offset `o`. -/
def AliasRow (s : State) (a o : Nat) : Prop :=
  (o < 0x4000 ∧ s.lowsel = .ramLo ∧ a = o) ∨
  (o < 0x4000 ∧ s.midsel = .cell 0 ∧ a = 0x8000 + o) ∨
  (0x4000 ≤ o ∧ o < 0x8000 ∧ s.lowsel = .ramLo ∧ a = o) ∨
  (0x4000 ≤ o ∧ o < 0x8000 ∧ s.midsel = .cell 1 ∧ a = 0x8000 + (o - 0x4000)) ∨
  (0x8000 ≤ o ∧ o < 0xC000 ∧ s.lowsel = .ramHi ∧ a = o - 0x8000) ∨
  (0x8000 ≤ o ∧ o < 0xC000 ∧ s.midsel = .cell 2 ∧ a = o) ∨
  (0xC000 ≤ o ∧ o < 0xE800 ∧ s.lowsel = .ramHi ∧ a = o - 0x8000) ∨
  (0xC000 ≤ o ∧ o < 0xE800 ∧ s.highsel = .mainram ∧ a = o) ∨
  (0xC000 ≤ o ∧ o < 0xE800 ∧ s.midsel = .cell 3 ∧ a = 0x8000 + (o - 0xC000)) ∨
  (0xE800 ≤ o ∧ o < 0x10000 ∧ a = o) ∨
  (0xE800 ≤ o ∧ o < 0x10000 ∧ s.lowsel = .ramHi ∧ a = o - 0x8000) ∨
  (0xE800 ≤ o ∧ o < 0x10000 ∧ s.midsel = .cell 3 ∧ a = 0x8000 + (o - 0xC000)) ∨
  (0x10000 ≤ o ∧ o < 0x14000 ∧ s.midsel = .cell 4 ∧ a = 0x8000 + (o - 0x10000))

/-! ## Ignored bits (R60, R62 to R64) -/

/-- A request word with the bits its operation ignores set to 0: `D` of a read, and the high address byte of an I/O
request. -/
def clearIgnored (w : ReqWord) : ReqWord :=
  if w.getLsbD 25 then
    if w.getLsbD 24 then w &&& 0x300FFFF#26 else w &&& 0x300FF00#26
  else
    if w.getLsbD 24 then w else w &&& 0x3FFFF00#26

/-- The input served by a step, with what is pending behind it. -/
def stepOn (s : State) (f : Frame) (rest : List Frame) : Host.Outcome State Fault Refusal :=
  step (s.withPending (f :: rest))

end Sys2Proof.Machine
end

