-- ==== Sys2Proof/Certificates/Slice0/Obligations.lean ====
section
/-! DEFINITION. The statements for the provers. Each docstring names the rule or sentence of spec/ it formalises, and
the log entries (notes/assumptions/) it rests on. Rules the spec marks "[derived ...]" or "[decision ...]" are its own
inferences, and so is a clause that a rule marks inline with a decision: a statement resting on one has basis
"derived" and names the decision. The field `answer` is the interface's (log entry 4): where
a rule says nothing of an answer, the statement leaves it open. -/

open Sys2Proof Sys2Proof.Machine

/-! ## Encoding -/

/-- Every well-formed operation, with every operand, is what its encoding decodes to (30_encoding.md, formats BUSREQ
and SIGNAL and the spec's own decode, decision D2). The formats are the spec's own choice (decision D2, log entry
17). -/
def Obligations.DecodeOfEncode : Prop :=
  ∀ i : Instr, i.wellFormed = true → decode (encode i) = .ok i

/-- Every request word decodes to a well-formed operation, whose encoding is the word with its ignored bits cleared:
no bit but the ignored ones is lost (30_encoding.md, "The decode is total", decision D2). The formats and the ignored
bits are the spec's own choices (decisions D2 and D3, log entries 9 and 17). -/
def Obligations.EncodeOfDecode : Prop :=
  ∀ w : ReqWord, ∃ i, decode (.busreq w) = .ok i ∧ i.wellFormed = true ∧ encode i = .busreq (clearIgnored w)

/-- The decoder gives the first row of the opcode table that a word matches (opcode_table.json, "MMR_RD takes
precedence"; decision D2). The formats are the spec's own choice (decision D2, log entry 17). -/
def Obligations.DecodeFollowsOpcodeTable : Prop :=
  ∀ w : ReqWord, ∃ r i, opcodeTable.find? (fun r => r.admits w) = some r ∧
    decode (.busreq w) = .ok i ∧ i.mnemonic = r.mnemonic

/-- Two words that differ only in bits their operation ignores are served alike: `D` except for MEM_WR and MMR_WR,
and the high address byte of an I/O request (30_encoding.md, operand D and I/O port selection; decisions D2 and D3).
The ignored bits are the spec's own choices (decisions D2 and D3, log entries 9 and 17). -/
def Obligations.IgnoredBitsHaveNoEffect : Prop :=
  ∀ (s : State) (rest : List Frame) (w w' : ReqWord),
    reqOp w = reqOp w' →
    portOf (reqA w) = portOf (reqA w') →
    (reqOp w = 0b00#2 ∨ reqOp w = 0b01#2 → reqA w = reqA w') →
    (reqOp w = 0b01#2 ∨ (reqOp w = 0b11#2 ∧ portOf (reqA w) = 0x30#8) → reqD w = reqD w') →
    stepOn s (.busreq w) rest = stepOn s (.busreq w') rest

/-- Words written out by the spec decode as it says (95_test_vectors.md 2.1), and the raised reset input is RESET. That
an input not raised is no event is the model's reading (log entry 7). -/
def Obligations.SampleWordsDecode : Prop :=
  decode (.busreq 0x0FFFF5A#26) = .ok (.memRd 0xFFFF#16) ∧
  decode (.busreq 0x11000AA#26) = .ok (.memWr 0x1000#16 0xAA#8) ∧
  decode (.busreq 0x2123000#26) = .ok .mmrRd ∧
  decode (.busreq 0x2301200#26) = .ok (.ioRdNosel 0x12#8) ∧
  decode (.busreq 0x3FF3080#26) = .ok (.mmrWr 0x80#8) ∧
  decode (.busreq 0x30031FF#26) = .ok (.ioWrNosel 0x31#8 0xFF#8) ∧
  decode (.signal 1#1) = .ok .reset ∧
  decode (.signal 0#1) = .error .noEvent

/-- The selections' binary codes are those of the spec's table and tell the selections apart (10_state.md, the
suggested encoding of decision D2). -/
def Obligations.SelectionCodesAreDistinct : Prop :=
  (∀ x y : LowSel, x.code = y.code → x = y) ∧ (∀ x : LowSel, x.code ≠ 7#3) ∧
  (∀ x y : MidSel, x.code = y.code → x = y) ∧ (∀ x : MidSel, x.code ≠ 5#3 ∧ x.code ≠ 7#3) ∧
  (∀ x y : HighSel, x.code = y.code → x = y)

/-! ## Steps -/

/-- A step takes the oldest pending input and is exec of the operation it decodes to, on the state with that input
taken (20_memory.md, consistency model; the list of inputs is the model's, log entry 4). -/
def Obligations.StepRunsDecodedRequest : Prop :=
  ∀ (s : State) (f : Frame) (rest : List Frame) (i : Instr),
    s.pending = f :: rest → decode f = .ok i → step s = exec i { s with pending := rest }

/-- With no input, and on a reset input that is not raised, nothing changes: the model's reading of "The block itself
takes no step of its own" (00_scope.md; log entry 7). -/
def Obligations.StepWithoutEventChangesNothing : Prop :=
  ∀ s : State, (s.pending = [] → step s = .next s) ∧
    ∀ rest, s.pending = .signal 0#1 :: rest → step s = .next { s with pending := rest }

/-- A request word handed in from outside is the one served next, in front of what is pending (log entry 4). -/
def Obligations.FetchWordIsServedNext : Prop :=
  ∀ (s : State) (w : ReqWord), ∃ i, decodeTableWord 32 w.toNat = some i ∧
    step (s.withFetchWord 32 w.toNat) = exec i s

/-! ## The MMR -/

/-- MMR_RD answers all eight bits of the MMR and changes nothing (40_mmr_register.md, MMR_RD, decision D19). The
read-back of all bits is the spec's own choice (decision D19, log entry 22). -/
def Obligations.MmrReadAnswersStoredValue : Prop :=
  ∀ s : State, exec .mmrRd s = .next { s with answer := .data s.mmr }

/-- MMR_WR (R81): writing the MMR's own value does nothing, without a diagnostic; writing another value stores it and
installs what `resolve_banks` decodes, in one step; no memory content changes. It rests on choices too: the diagnostic
carrying the value (R143, decision D18) and the model's recording it (log entry 11), the place of the low source
(decision D1, log entry 6), and the request word with its ignored high address byte (decisions D2 and D3, log entries
9 and 17). -/
def Obligations.MmrWriteComparesThenResolves : Prop :=
  (∀ (hi v : Byte), decode (.busreq (packReq 0b11#2 (hi ++ 0x30#8) v)) = .ok (.mmrWr v)) ∧
  ∀ (s : State) (v : Byte),
    (v = s.mmr → ∃ r, exec (.mmrWr v) s = .next { s with answer := r }) ∧
    (v ≠ s.mmr → ∃ r, exec (.mmrWr v) s = .next { s with
      mmr := v
      lowsel := (lowDecode s.cfg v).getD s.lowsel
      midsel := midDecode s.cfg v
      highsel := highDecode v
      diags := s.diags ++ (if v.toNat / 4 % 4 = 3 then [.invalidLow v] else [])
      answer := r })

/-- What an MMR write installs in the low window (41_bank_resolution.md, low_decode R101 and R102): by bits 3:2, and
for ROM by bits 1:0. It rests on the spec's own choices: the places of the fields (decision D1, log entry 6), the ROM
bank layout and the cartridge offset (decisions D8 and D9, log entry 13), and source 3 under UNMAP (decision D6, log
entry 8). Source 3 under RETAIN is in `InvalidLowSourceIsNeverFatal`. -/
def Obligations.LowWindowAfterMmrWrite : Prop :=
  ∀ (s : State) (v : Byte), v ≠ s.mmr → ∃ t, exec (.mmrWr v) s = .next t ∧
    ∀ a : Addr, a.toNat ≤ 0x7FFF →
      (v.toNat / 4 % 4 = 0 → v.toNat % 4 < 3 →
        route t a = .rom (v.toNat % 4 * 0x8000 + a.toNat) ∧ (route t a).right = some .ro) ∧
      (v.toNat / 4 % 4 = 0 → v.toNat % 4 = 3 → s.cfg.cartRomPresent = true →
        route t a = .cart a.toNat ∧ (route t a).right = some .ro) ∧
      (v.toNat / 4 % 4 = 0 → v.toNat % 4 = 3 → s.cfg.cartRomPresent = false → route t a = .none) ∧
      (v.toNat / 4 % 4 = 1 → route t a = .ram a.toNat ∧ (route t a).right = some .rw) ∧
      (v.toNat / 4 % 4 = 2 → route t a = .ram (0x8000 + a.toNat) ∧ (route t a).right = some .rw) ∧
      (v.toNat / 4 % 4 = 3 → s.cfg.invalidLowPolicy = .unmap → route t a = .none)

/-- What an MMR write installs in the mid window, by bits 5:4 (41_bank_resolution.md, mid_decode, decisions D5 and
D7). It rests on the spec's own choices: the place of mid_window_source, which the source does not anchor (decision
D1, log entry 6), and the expansion and its cell (decisions D5 and D7, log entry 14). -/
def Obligations.MidWindowAfterMmrWrite : Prop :=
  ∀ (s : State) (v : Byte), v ≠ s.mmr → ∃ t, exec (.mmrWr v) s = .next t ∧
    ∀ a : Addr, 0x8000 ≤ a.toNat → a.toNat ≤ 0xBFFF →
      (v.toNat / 16 % 4 < 3 → route t a = .ram (v.toNat / 16 % 4 * 0x4000 + (a.toNat - 0x8000))) ∧
      (v.toNat / 16 % 4 = 3 → 0x10000 < s.cfg.ramSize → s.cfg.midXCell = .cell3 →
        route t a = .ram (0xC000 + (a.toNat - 0x8000))) ∧
      (v.toNat / 16 % 4 = 3 → 0x10000 < s.cfg.ramSize → s.cfg.midXCell = .cell4 →
        route t a = .ram (0x10000 + (a.toNat - 0x8000))) ∧
      (v.toNat / 16 % 4 = 3 → s.cfg.ramSize ≤ 0x10000 → route t a = .none)

/-- What an MMR write installs in the high window, by bit 6 (41_bank_resolution.md, high_decode, decision D10). It
rests on the spec's own choices: the layout of the MMR (decision D1, log entry 6), in which bit 6 is anchored in the
source, and the size and offset of video RAM (decision D10, log entry 13). -/
def Obligations.HighWindowAfterMmrWrite : Prop :=
  ∀ (s : State) (v : Byte), v ≠ s.mmr → ∃ t, exec (.mmrWr v) s = .next t ∧
    ∀ a : Addr, 0xC000 ≤ a.toNat → a.toNat ≤ 0xE7FF →
      (v.toNat / 64 % 2 = 0 → route t a = .ram a.toNat) ∧
      (v.toNat / 64 % 2 = 1 → a.toNat ≤ 0xDFFF → route t a = .vram (a.toNat - 0xC000)) ∧
      (v.toNat / 64 % 2 = 1 → 0xE000 ≤ a.toNat → route t a = .none)

/-- An invalid low source is stored, read back, and recovered locally (R141): the other windows are installed (R83), one
diagnostic is emitted, the low window becomes unmapped, or, under the policy RETAIN, stays (R103). It rests on the
spec's own choices: both policies (decision D6, log entry 8), the diagnostic carrying the value (R143, decision D18)
and the model's recording it (log entry 11), the read-back of all bits (R83, decision D19, log entry 22) and the place
of the field (decision D1, log entry 6). -/
def Obligations.InvalidLowSourceIsNeverFatal : Prop :=
  ∀ (s : State) (v : Byte), v ≠ s.mmr → v.toNat / 4 % 4 = 3 → ∃ t, exec (.mmrWr v) s = .next t ∧
    t.mmr = v ∧ t.midsel = midDecode s.cfg v ∧ t.highsel = highDecode v ∧ t.diags = s.diags ++ [.invalidLow v] ∧
    (s.cfg.invalidLowPolicy = .unmap → t.lowsel = .unmapped) ∧
    (s.cfg.invalidLowPolicy = .retain → t.lowsel = s.lowsel) ∧
    exec .mmrRd t = .next { t with answer := .data v }

/-- A cartridge ROM selected with no cartridge, or the expansion with 64 KiB of RAM, installs nothing, and emits no
diagnostic (R144); reads there are open bus and writes are dropped. It rests on the spec's own choices: the places of
the fields (decision D1, log entry 6), the expansion as RAM beyond 64 KiB (decision D7, log entry 14) and the one
open-bus value (decision D4, log entry 20). -/
def Obligations.MissingCollaboratorIsUnmapped : Prop :=
  ∀ (s : State) (v : Byte), v ≠ s.mmr → ∃ t, exec (.mmrWr v) s = .next t ∧
    (v.toNat % 16 = 3 → s.cfg.cartRomPresent = false →
      t.lowsel = .unmapped ∧ t.diags = s.diags ∧
      ∀ a : Addr, a.toNat ≤ 0x7FFF → exec (.memRd a) t = .next { t with answer := .data s.cfg.openBus } ∧
        ∀ d, ∃ r, exec (.memWr a d) t = .next { t with answer := r }) ∧
    (v.toNat / 16 % 4 = 3 → s.cfg.ramSize = 0x10000 →
      t.midsel = .unmapped ∧ (v.toNat / 4 % 4 ≠ 3 → t.diags = s.diags) ∧
      ∀ a : Addr, 0x8000 ≤ a.toNat → a.toNat ≤ 0xBFFF →
        exec (.memRd a) t = .next { t with answer := .data s.cfg.openBus } ∧
        ∀ d, ∃ r, exec (.memWr a d) t = .next { t with answer := r })

/-- After a reset the MMR is stale: writing its own value leaves the mapping of 0, writing another installs that one
(40_mmr_register.md, the stale value, which the spec derives). -/
def Obligations.StaleMmrAfterReset : Prop :=
  ∀ s : State, ∃ t, exec .reset s = .next t ∧
    (∃ u, exec (.mmrWr s.mmr) t = .next u ∧
      u.mmr = s.mmr ∧ u.lowsel = .rom0 ∧ u.midsel = .cell 0 ∧ u.highsel = .mainram) ∧
    ∀ v, v ≠ s.mmr → ∃ u, exec (.mmrWr v) t = .next u ∧ u.mmr = v ∧ u.MappingOf v

/-- Values that differ only in bit 7 install the same selections, and writing one after the other stores the second
(40_mmr_register.md, bit 7, which the spec derives from decision D1). That bit 7 decodes to nothing is the spec's own
choice (decision D1, log entry 6). -/
def Obligations.BitSevenSelectsNothing : Prop :=
  ∀ (s : State) (v : Byte), v ≠ s.mmr → ∃ t u, exec (.mmrWr v) s = .next t ∧
    exec (.mmrWr (v ^^^ 0x80#8)) t = .next u ∧ u.mmr = v ^^^ 0x80#8 ∧ t.SameMapping u ∧
    ∀ u', v ^^^ 0x80#8 ≠ s.mmr → exec (.mmrWr (v ^^^ 0x80#8)) s = .next u' → t.SameMapping u'

/-- The idiom REMAP v ends with the MMR at v and the mapping of v, whatever the MMR held before, and changes no byte
of memory (70_reset_and_hazards.md, what boot software must do, which the spec derives). That bit 7 decodes to
nothing is the spec's own choice (decision D1, log entry 6), and the list of inputs is the model's (log entry 4). -/
def Obligations.RemapInstallsMapping : Prop :=
  ∀ (s : State) (v : Byte) (rest : List Frame), ∃ t,
    Sys2Proof.core.run 2 { s with pending := remap v ++ rest } = .next t ∧
    t.mmr = v ∧ t.MappingOf v ∧ t.ram = s.ram ∧ t.vram = s.vram ∧ t.pending = rest

/-- Writing the same value twice is writing it once (20_memory.md, side effects (4), which the spec derives). -/
def Obligations.MmrWriteIsIdempotent : Prop :=
  ∀ (s : State) (v : Byte), ∃ t, exec (.mmrWr v) s = .next t ∧ exec (.mmrWr v) t = .next t

/-- I/O requests to other ports change nothing of the block; on a read the block drives no data (40_mmr_register.md,
the `_NOSEL` operations, decision D21). The spec's own choice (decision D21, log entry 9); the answers are the
model's outputs (log entry 4). -/
def Obligations.OtherPortsChangeNothing : Prop :=
  ∀ (s : State) (p : Port) (d : Byte),
    exec (.ioRdNosel p) s = .next { s with answer := .notDriven } ∧
    exec (.ioWrNosel p d) s = .next { s with answer := .none }

/-- Writes and the reset event answer no byte: the model's output convention (log entry 4). -/
def Obligations.WritesAnswerNoByte : Prop :=
  ∀ (s : State), s.Inv →
    (∀ a d, ∃ t, exec (.memWr a d) s = .next t ∧ t.answer = .none) ∧
    (∀ v, ∃ t, exec (.mmrWr v) s = .next t ∧ t.answer = .none) ∧
    ∃ t, exec .reset s = .next t ∧ t.answer = .none

/-! ## The diagnostic -/

/-- A diagnostic is emitted by an MMR write that changes the value to one with low source 3, once, carrying the
value, and by nothing else (60_exceptions.md, the diagnostic output, decision D18; the history is log entry 11). It
rests on the place of the low source (decision D1, log entry 6), the diagnostic (decision D18) and its recording (log
entry 11). -/
def Obligations.DiagnosticOnlyOnInvalidLow : Prop :=
  ∀ (i : Instr) (s t : State), exec i s = .next t →
    (∃ v, i = .mmrWr v ∧ v ≠ s.mmr ∧ v.toNat / 4 % 4 = 3 ∧ t.diags = s.diags ++ [.invalidLow v]) ∨
    ((∀ v, i = .mmrWr v → v = s.mmr ∨ v.toNat / 4 % 4 ≠ 3) ∧ t.diags = s.diags)

/-- The diagnostic history has no effect on any step: two states that differ in it alone step to outcomes that differ
in it alone (60_exceptions.md, "It changes no state of the block, no result of any later request", decision D18). It
rests on decision D18; the history is the model's (log entry 11). -/
def Obligations.DiagnosticsAreAdvisory : Prop :=
  ∀ (s : State) (d : List Diag),
    outcomeWithoutDiags (step { s with diags := d }) = outcomeWithoutDiags (step s)

/-! ## Windows and translation -/

/-- The four windows tile the CPU space, and each address is translated by its own window's selection alone, the top
window's by none (R40). -/
def Obligations.WindowsTileTheSpace : Prop :=
  (∀ (a : Addr) (w : Window), windowOf a = w ↔ w.base ≤ a.toNat ∧ a.toNat < w.base + w.size) ∧
  (Window.low.size = 0x8000 ∧ Window.mid.size = 0x4000 ∧ Window.high.size = 0x2800 ∧ Window.top.size = 0x1800) ∧
  (∀ a : Addr,
    (windowOf a = .low ↔ 0x0000 ≤ a.toNat ∧ a.toNat ≤ 0x7FFF) ∧
    (windowOf a = .mid ↔ 0x8000 ≤ a.toNat ∧ a.toNat ≤ 0xBFFF) ∧
    (windowOf a = .high ↔ 0xC000 ≤ a.toNat ∧ a.toNat ≤ 0xE7FF) ∧
    (windowOf a = .top ↔ 0xE800 ≤ a.toNat ∧ a.toNat ≤ 0xFFFF)) ∧
  ∀ (s t : State) (a : Addr),
    (windowOf a = .low → s.lowsel = t.lowsel → route s a = route t a) ∧
    (windowOf a = .mid → s.midsel = t.midsel → route s a = route t a) ∧
    (windowOf a = .high → s.highsel = t.highsel → route s a = route t a) ∧
    (windowOf a = .top → route s a = route t a)

/-- The window select by address bits agrees with the bounds, and bit 13 marks the hole in the high window
(30_encoding.md, window select in bits, which the spec derives). -/
def Obligations.WindowBitsAgreeWithBounds : Prop :=
  ∀ a : Addr, windowOfBits a = windowOf a ∧
    (windowOf a = .high → (a.getLsbD 13 = false ↔ a.toNat ≤ 0xDFFF))

/-- Within a window the byte offset is preserved: going down by n in the CPU space goes down by n in the store
(42_window_access.md, offset within a bank, which the spec derives). -/
def Obligations.OffsetWithinBankIsKept : Prop :=
  ∀ (s : State) (a b : Addr), windowOf a = windowOf b → a.toNat ≤ b.toNat → ∀ off,
    (route s b = .rom off → b.toNat - a.toNat ≤ off ∧ route s a = .rom (off - (b.toNat - a.toNat))) ∧
    (route s b = .cart off → b.toNat - a.toNat ≤ off ∧ route s a = .cart (off - (b.toNat - a.toNat))) ∧
    (route s b = .ram off → b.toNat - a.toNat ≤ off ∧ route s a = .ram (off - (b.toNat - a.toNat))) ∧
    (route s b = .vram off → b.toNat - a.toNat ≤ off ∧ route s a = .vram (off - (b.toNat - a.toNat)))

/-- The CPU addresses that reach a main-RAM offset are exactly those of the spec's table of aliases, and cells 3 and
4 are installed only as the table says (20_memory.md, aliases, which the spec derives). The layout of the expansion
cells is the spec's own choice (decisions D5 and D7, log entry 14). -/
def Obligations.AliasTableIsExact : Prop :=
  (∀ (s : State) (a : Addr) (off : Nat), route s a = .ram off ↔ AliasRow s a.toNat off) ∧
  ∀ s : State, s.Inv →
    (s.midsel = .cell 3 → s.cfg.midXCell = .cell3 ∧ 0x10000 < s.cfg.ramSize) ∧
    (s.midsel = .cell 4 → s.cfg.midXCell = .cell4 ∧ 0x10000 < s.cfg.ramSize)

/-- A write through one alias of a main-RAM byte is what a read through any alias answers (20_memory.md, "since there
is one store", which the spec derives). -/
def Obligations.AliasedWriteIsSeen : Prop :=
  ∀ (s : State) (a b : Addr) (off : Nat) (d : Byte), s.Inv →
    route s a = .ram off → route s b = .ram off →
    ∃ t, exec (.memWr a d) s = .next t ∧ exec (.memRd b) t = .next { t with answer := .data d }

/-- Every offset the translation gives lies inside its store (42_window_access.md, offsets stay in range, which the
spec derives). The sizes are the spec's own choices (decisions D7 to D10, log entries 2, 13 and 14). -/
def Obligations.OffsetsStayInStores : Prop :=
  ∀ (s : State) (a : Addr), s.Inv →
    (∀ off, route s a = .rom off → off < 0x18000) ∧
    (∀ off, route s a = .cart off → off < 0x8000) ∧
    (∀ off, route s a = .ram off → off < s.cfg.ramSize ∧
      (if s.midsel = .cell 4 ∧ windowOf a = .mid then 0x10000 ≤ off ∧ off < 0x14000 else off < 0x10000)) ∧
    (∀ off, route s a = .vram off → off < 0x2000)

/-- The top window is main RAM at the CPU address, read-write, and no operation changes that (R107). -/
def Obligations.TopWindowIsFixed : Prop :=
  ∀ (s : State) (a : Addr), 0xE800 ≤ a.toNat →
    route s a = .ram a.toNat ∧ (route s a).right = some .rw ∧
    ∀ i t, exec i s = .next t → route t a = .ram a.toNat

/-! ## Memory requests -/

/-- MEM_RD (R120) answers the byte its address is routed to, open bus where it is routed to nothing, and changes
nothing else. -/
def Obligations.MemReadAnswersRoutedByte : Prop :=
  (∀ (a : Addr) (d : Byte), decode (.busreq (packReq 0b00#2 a d)) = .ok (.memRd a)) ∧
  ∀ (s : State) (a : Addr), s.Inv →
    exec (.memRd a) s = .next { s with answer := .data (
      match route s a with
      | .rom off => s.cfg.rom.byte off
      | .cart off => s.cfg.cartRom.byte off
      | .ram off => ramRead s off
      | .vram off => vramRead s off
      | .none => s.cfg.openBus) }

/-- MEM_WR (R121) changes the one byte of main RAM or video RAM its address is routed to, and nothing where it is
routed to ROM, cartridge ROM or nothing; no register and no selection changes. -/
def Obligations.MemWriteChangesRoutedByte : Prop :=
  (∀ (a : Addr) (d : Byte), decode (.busreq (packReq 0b01#2 a d)) = .ok (.memWr a d)) ∧
  ∀ (s : State) (a : Addr) (d : Byte), s.Inv → ∃ t, exec (.memWr a d) s = .next t ∧
    t.mmr = s.mmr ∧ t.lowsel = s.lowsel ∧ t.midsel = s.midsel ∧ t.highsel = s.highsel ∧
    t.cfg = s.cfg ∧ t.pending = s.pending ∧ t.diags = s.diags ∧
    (∀ off, ramRead t off = if route s a = .ram off then d else ramRead s off) ∧
    (∀ off, vramRead t off = if route s a = .vram off then d else vramRead s off)

/-- A write to a read-only or unmapped target is dropped: no state of the block changes and no diagnostic is emitted
(R126). -/
def Obligations.WriteToReadOnlyIsDropped : Prop :=
  ∀ (s : State) (a : Addr) (d : Byte), (route s a).right = some .ro ∨ route s a = .none →
    ∃ r, exec (.memWr a d) s = .next { s with answer := r }

/-- An unmapped access (R142): the read answers open bus, the write is dropped, no diagnostic is emitted. -/
def Obligations.UnmappedAccessIsOpenBus : Prop :=
  ∀ (s : State) (a : Addr), route s a = .none →
    exec (.memRd a) s = .next { s with answer := .data s.cfg.openBus } ∧
    ∀ d, ∃ r, exec (.memWr a d) s = .next { s with answer := r }

/-- The ROM images are configuration: no step changes them, and a write routed to one, always inside it, is ignored
(R29). -/
def Obligations.RomsAreNeverWritten : Prop :=
  (∀ s t : State, step s = .next t → t.cfg = s.cfg) ∧
  ∀ (s : State) (a : Addr) (off : Nat),
    (route s a = .rom off → off < 0x18000 ∧ (route s a).right = some .ro ∧
      ∀ d, ∃ r, exec (.memWr a d) s = .next { s with answer := r }) ∧
    (route s a = .cart off → off < 0x8000 ∧ (route s a).right = some .ro ∧
      ∀ d, ∃ r, exec (.memWr a d) s = .next { s with answer := r })

/-- The request issued next after an MMR write sees the new mapping: no delay, no grace (20_memory.md, fences, and
70_reset_and_hazards.md, remapping the window that holds the running code, which the spec derives; decision D15).
That nothing is delayed is the spec's own choice (decision D15, log entry 15). -/
def Obligations.NextRequestSeesNewMapping : Prop :=
  ∀ (s : State) (v : Byte) (a : Addr), s.Inv → v ≠ s.mmr →
    ∃ t u, exec (.mmrWr v) s = .next t ∧ t.MappingOf v ∧
      execAll [.mmrWr v, .memRd a] s = .next u ∧ u.answer = .data (targetByte t (route t a))

/-- A two-byte read reaches the block as two requests, each routed by its own address, over a window edge and over
the end of the space too (42_window_access.md, multi-byte CPU accesses and the window edges, which the spec derives).
That two bytes are two requests is the spec's own choice (decisions D14 and D20, log entry 16). -/
def Obligations.TwoByteReadRoutesEachByte : Prop :=
  ∀ (s : State) (a : Addr), s.Inv → ∃ t u, exec (.memRd a) s = .next t ∧ exec (.memRd (a + 1)) t = .next u ∧
    t.answer = .data (targetByte s (route s a)) ∧ u.answer = .data (targetByte s (route s (a + 1))) ∧
    (a = 0x7FFF#16 → windowOf a = .low ∧ windowOf (a + 1) = .mid) ∧
    (a = 0xE7FF#16 → windowOf a = .high ∧ windowOf (a + 1) = .top) ∧
    (a = 0xFFFF#16 → windowOf a = .top ∧ windowOf (a + 1) = .low)

/-! ## Who changes what -/

/-- The selections are the only translation state, and only an MMR write that changes the value, or a reset, changes
them (R54). -/
def Obligations.OnlyResolutionChangesSelections : Prop :=
  (∀ (s t : State), s.SameMapping t → ∀ a, route t a = route s a) ∧
  ∀ (i : Instr) (s t : State), exec i s = .next t → ¬ s.SameMapping t →
    i = .reset ∨ ∃ v, i = .mmrWr v ∧ v ≠ s.mmr

/-- The MMR has one writer, the I/O write to port 0x30, and main RAM and video RAM have one, the memory write (R32). -/
def Obligations.SingleWriters : Prop :=
  ∀ (i : Instr) (s t : State), exec i s = .next t →
    (t.mmr ≠ s.mmr → i = .mmrWr t.mmr) ∧
    (t.ram ≠ s.ram ∨ t.vram ≠ s.vram → ∃ a d, i = .memWr a d)

/-- Bytes hidden by remapping or by resets are kept: any run of operations without a memory write leaves both stores
as they were (40_mmr_register.md, "bytes hidden by a remap keep their values", which the spec derives; over a reset,
decision D12). Over a reset it is the spec's own choice (decision D12, log entry 12). -/
def Obligations.HiddenBytesAreKept : Prop :=
  ∀ (is : List Instr) (s : State), s.Inv → (∀ a d, Instr.memWr a d ∉ is) →
    ∃ t, execAll is s = .next t ∧ t.ram = s.ram ∧ t.vram = s.vram ∧ s.SameBytes t

/-! ## Reset -/

/-- RESET (R160) forces the mapping of 0 whatever the MMR holds, and changes neither the MMR nor memory; a second
reset changes nothing more. That main RAM and video RAM are kept is the spec's own choice (decision D12, log entry
12). -/
def Obligations.ResetForcesMappingOfZero : Prop :=
  decode (.signal 1#1) = .ok .reset ∧
  ∀ s : State, ∃ t r, exec .reset s = .next t ∧
    t = { s with lowsel := .rom0, midsel := .cell 0, highsel := .mainram, answer := r } ∧
    exec .reset t = .next t

/-- After a reset the windows show ROM bank 0, RAM cell 0 and main RAM (70_reset_and_hazards.md, what the mapping is
at boot, which the spec derives). The layout of ROM bank 0 is the spec's own choice (decision D8, log entry 13). -/
def Obligations.BootMapping : Prop :=
  ∀ s : State, ∃ t, exec .reset s = .next t ∧ ∀ a : Addr,
    (a.toNat ≤ 0x7FFF → route t a = .rom a.toNat) ∧
    (0x8000 ≤ a.toNat → a.toNat ≤ 0xBFFF → route t a = .ram (a.toNat - 0x8000)) ∧
    (0xC000 ≤ a.toNat → route t a = .ram a.toNat)

/-- The state after power-on is what a reset makes of the arriving contents, whatever the selections were
(70_reset_and_hazards.md, power-on, decision D11; log entry 5). -/
def Obligations.PowerOnIsContentsThenReset : Prop :=
  ∀ (c : Config) (lo : LowSel) (mi : MidSel) (hi : HighSel),
    exec .reset { State.powerOn c with lowsel := lo, midsel := mi, highsel := hi } = .next (State.powerOn c)

/-- The values after reset (10_state.md, the state table R30; decision D11, log entries 1, 3 and 5): the MMR holds the
draw MMR_POWERON, the selections are those of 0, each buffer reads as its initial contents. That the policy is UNMAP
is the value R7 gives this hardware, by decision D6 (log entry 8). -/
def Obligations.ResetStateValues : Prop :=
  State.reset.mmr = State.reset.cfg.mmrPowerOn ∧
  State.reset.lowsel = .rom0 ∧ State.reset.midsel = .cell 0 ∧ State.reset.highsel = .mainram ∧
  State.reset.cfg.invalidLowPolicy = .unmap ∧
  (∀ off, ramRead State.reset off = State.reset.cfg.ramInit.byte off) ∧
  ∀ off, vramRead State.reset off = State.reset.cfg.vramInit.byte off

/-- The RAM sizes a run can start from are exactly those the spec admits; 0x11000 beside cell 4 is not one
(10_state.md, main RAM buffer, decision D7; log entry 2). -/
def Obligations.RamSizesAreThoseAdmitted : Prop :=
  (∀ (x : MidXCell) (n : Nat), ramSizeAdmitted x (admittedRamSize x n)) ∧
  (∀ (x : MidXCell) (n : Nat), ramSizeAdmitted x n → admittedRamSize x n = n) ∧
  ¬ ramSizeAdmitted .cell4 0x11000

/-! ## Invariants and runs -/

/-- Every step keeps the invariant of a run: an admitted configuration, selections it can install, both stores in
canonical form and inside their sizes (10_state.md; the canonical form is the model's, log entry 3). -/
def Obligations.StepKeepsInvariant : Prop :=
  ∀ s t : State, s.Inv → step s = .next t → t.Inv

/-- The state after power-on satisfies the invariant for every admitted configuration, and so does the reset state
(10_state.md; log entries 1 to 3). -/
def Obligations.PowerOnSatisfiesInvariant : Prop :=
  (∀ c : Config, c.Admitted → (State.powerOn c).Inv) ∧ State.reset.Inv

/-- No exceptions (R140): under any admitted configuration and any selections it can install, every operation and
every step completes, with no fault and no refusal. -/
def Obligations.EveryRequestCompletes : Prop :=
  ∀ s : State, s.Inv → (∀ i, ∃ t, exec i s = .next t) ∧ ∃ t, step s = .next t

/-- Every step keeps the mapping explained: it is that of the MMR's value, or that of 0 (10_state.md, "The selections
are state distinct from `mmr`", which the spec derives). -/
def Obligations.StepKeepsMappingExplained : Prop :=
  ∀ s t : State, s.MappingExplained → step s = .next t → t.MappingExplained

/-- The mapping after power-on is explained, for every configuration, and a mapping that is not that of the MMR's value
does occur (10_state.md, "They are not always the decode of `mmr`", which the spec derives). -/
def Obligations.MappingCanDifferFromMmr : Prop :=
  (∀ c : Config, (State.powerOn c).MappingExplained) ∧
  ∃ s : State, s.Inv ∧ s.MappingExplained ∧ ¬ s.MappingOf s.mmr

/-- A run over the pending requests serves them one after the other in the order they were issued, each with all its
effects before the next (20_memory.md, consistency model; the list of inputs is the model's, log entry 4). -/
def Obligations.RunServesRequestsInOrder : Prop :=
  ∀ (s : State) (is : List Instr), s.Inv → (∀ i ∈ is, i.wellFormed = true) → s.pending = is.map encode →
    ∃ t, Sys2Proof.core.run is.length s = .next t ∧ execAll is { s with pending := [] } = .next t ∧
      t.pending = [] ∧ t.Inv

/-- Two stores in canonical form that read the same at every offset are the same data (the model's form of memory, log
entry 3). -/
def Obligations.EqualContentsAreEqualData : Prop :=
  ∀ (size : Nat) (init : Image) (m m' : Memory), Memory.wf size init m → Memory.wf size init m' →
    (∀ off, Memory.read init m off = Memory.read init m' off) → m = m'
end

