-- ==== Sys2Proof/Laws/Memory.lean ====
section
/-! SUPPORT. The laws of a writable store: read after write, and the canonical form is kept by every operation. -/

namespace Sys2Proof.Machine

/-! ## Listing and unlisting -/

theorem mem_put {m : Memory} {off : Nat} {v : Byte} {c : Host.Cell}
    (h : c ∈ Memory.put m off v) : c = (off, v) ∨ c ∈ m := by
  induction m with
  | nil => simpa [Memory.put] using h
  | cons x m ih =>
    obtain ⟨o, b⟩ := x
    simp only [Memory.put] at h
    split at h
    · simpa using h
    · split at h
      · rcases List.mem_cons.1 h with h | h
        · exact .inl h
        · exact .inr (List.mem_cons_of_mem _ h)
      · rcases List.mem_cons.1 h with h | h
        · exact .inr (h ▸ List.mem_cons_self)
        · exact (ih h).imp id (List.mem_cons_of_mem _)

theorem mem_unlist {m : Memory} {off : Nat} {c : Host.Cell}
    (h : c ∈ Memory.unlist m off) : c ∈ m := by
  induction m with
  | nil => simp [Memory.unlist] at h
  | cons x m ih =>
    obtain ⟨o, b⟩ := x
    simp only [Memory.unlist] at h
    split at h
    · exact List.mem_cons_of_mem _ h
    · rcases List.mem_cons.1 h with h | h
      · exact h ▸ List.mem_cons_self
      · exact List.mem_cons_of_mem _ (ih h)

theorem put_sorted {m : Memory} (off : Nat) (v : Byte)
    (h : m.Pairwise (fun x y => x.1 < y.1)) :
    (Memory.put m off v).Pairwise (fun x y => x.1 < y.1) := by
  induction m with
  | nil => simp [Memory.put]
  | cons x m ih =>
    obtain ⟨o, b⟩ := x
    obtain ⟨hx, hm⟩ := List.pairwise_cons.1 h
    simp only [Memory.put]
    split
    · rename_i hlt
      refine List.pairwise_cons.2 ⟨fun c hc => ?_, h⟩
      rcases List.mem_cons.1 hc with rfl | hc
      · exact hlt
      · exact Nat.lt_trans hlt (hx c hc)
    · split
      · rename_i heq
        exact List.pairwise_cons.2 ⟨fun c hc => heq ▸ hx c hc, hm⟩
      · rename_i h1 h2
        refine List.pairwise_cons.2 ⟨fun c hc => ?_, ih hm⟩
        rcases mem_put hc with rfl | hc
        · show o < off
          omega
        · exact hx c hc

theorem unlist_sorted {m : Memory} (off : Nat)
    (h : m.Pairwise (fun x y => x.1 < y.1)) :
    (Memory.unlist m off).Pairwise (fun x y => x.1 < y.1) := by
  induction m with
  | nil => simp [Memory.unlist]
  | cons x m ih =>
    obtain ⟨o, b⟩ := x
    obtain ⟨hx, hm⟩ := List.pairwise_cons.1 h
    simp only [Memory.unlist]
    split
    · exact hm
    · exact List.pairwise_cons.2 ⟨fun c hc => hx c (mem_unlist hc), ih hm⟩

/-! ## The canonical form is kept -/

/-- Writing a byte inside the store keeps the canonical form. -/
theorem write_wf {size : Nat} {init : Image} {m : Memory} {off : Nat} (v : Byte)
    (h : Memory.wf size init m) (hoff : off < size) : Memory.wf size init (Memory.write init m off v) := by
  obtain ⟨hs, hc⟩ := h
  unfold Memory.write
  split
  · exact ⟨unlist_sorted off hs, fun c h => hc c (mem_unlist h)⟩
  · rename_i hv
    refine ⟨put_sorted off v hs, fun c h => ?_⟩
    rcases mem_put h with rfl | h
    · exact ⟨hoff, hv⟩
    · exact hc c h

theorem wf_nil (size : Nat) (init : Image) : Memory.wf size init [] := by simp [Memory.wf]

/-! ## Read after write -/

theorem cellAt_eq_none {m : Memory} {off : Nat} (h : ∀ c ∈ m, off < c.1) : cellAt m off = none := by
  induction m with
  | nil => rfl
  | cons x m ih =>
    obtain ⟨o, b⟩ := x
    have ho : off < o := h (o, b) List.mem_cons_self
    have hne : ¬ off = o := by omega
    simp only [cellAt, hne, if_false]
    exact ih fun c hc => h c (List.mem_cons_of_mem _ hc)

theorem cellAt_put (m : Memory) (off : Nat) (v : Byte) (o' : Nat) :
    cellAt (Memory.put m off v) o' = if o' = off then some v else cellAt m o' := by
  induction m with
  | nil => simp [Memory.put, cellAt]
  | cons x m ih =>
    obtain ⟨o, b⟩ := x
    simp only [Memory.put]
    split
    · simp [cellAt]
    · split
      · rename_i heq
        subst heq
        by_cases h : o' = off <;> simp [cellAt, h]
      · rename_i h1 h2
        by_cases h : o' = o
        · have : ¬ o' = off := by omega
          simp [cellAt, h]
          omega
        · simp [cellAt, h, ih]

theorem cellAt_unlist {m : Memory} (off : Nat) (hm : m.Pairwise (fun x y => x.1 < y.1)) (o' : Nat) :
    cellAt (Memory.unlist m off) o' = if o' = off then none else cellAt m o' := by
  induction m with
  | nil => simp [Memory.unlist, cellAt]
  | cons x m ih =>
    obtain ⟨o, b⟩ := x
    obtain ⟨hx, hs⟩ := List.pairwise_cons.1 hm
    simp only [Memory.unlist]
    split
    · rename_i heq
      subst heq
      by_cases h : o' = off
      · simpa [h] using cellAt_eq_none hx
      · simp [cellAt, h]
    · rename_i hne
      by_cases h : o' = o
      · have : ¬ o = off := fun e => hne e.symm
        simp [cellAt, h, this]
      · simp [cellAt, h, ih hs]

/-- Reading after a write in canonical form: the written byte at its offset, every other offset as before. -/
theorem read_write {size : Nat} {init : Image} {m : Memory} (h : Memory.wf size init m) (off : Nat) (v : Byte)
    (o' : Nat) :
    Memory.read init (Memory.write init m off v) o' = if o' = off then v else Memory.read init m o' := by
  unfold Memory.read Memory.write
  split
  · rename_i hv
    rw [cellAt_unlist off h.1]
    by_cases ho : o' = off <;> simp [ho, hv]
  · rw [cellAt_put]
    by_cases ho : o' = off <;> simp [ho]

end Sys2Proof.Machine
end

