-- ==== Sys2Proof/Laws/State.lean ====
section
/-! SUPPORT. One lemma per field for each update of a state, true by unfolding once. -/

namespace Sys2Proof.Machine

section respond
variable (s : State) (r : Answer)

@[simp] theorem respond_cfg : (respond s r).cfg = s.cfg := rfl
@[simp] theorem respond_mmr : (respond s r).mmr = s.mmr := rfl
@[simp] theorem respond_lowsel : (respond s r).lowsel = s.lowsel := rfl
@[simp] theorem respond_midsel : (respond s r).midsel = s.midsel := rfl
@[simp] theorem respond_highsel : (respond s r).highsel = s.highsel := rfl
@[simp] theorem respond_ram : (respond s r).ram = s.ram := rfl
@[simp] theorem respond_vram : (respond s r).vram = s.vram := rfl
@[simp] theorem respond_pending : (respond s r).pending = s.pending := rfl
@[simp] theorem respond_answer : (respond s r).answer = r := rfl
@[simp] theorem respond_diags : (respond s r).diags = s.diags := rfl

end respond

section withPending
variable (s : State) (fs : List Frame)

@[simp] theorem withPending_cfg : (s.withPending fs).cfg = s.cfg := rfl
@[simp] theorem withPending_mmr : (s.withPending fs).mmr = s.mmr := rfl
@[simp] theorem withPending_lowsel : (s.withPending fs).lowsel = s.lowsel := rfl
@[simp] theorem withPending_midsel : (s.withPending fs).midsel = s.midsel := rfl
@[simp] theorem withPending_highsel : (s.withPending fs).highsel = s.highsel := rfl
@[simp] theorem withPending_ram : (s.withPending fs).ram = s.ram := rfl
@[simp] theorem withPending_vram : (s.withPending fs).vram = s.vram := rfl
@[simp] theorem withPending_pending : (s.withPending fs).pending = fs := rfl
@[simp] theorem withPending_answer : (s.withPending fs).answer = s.answer := rfl
@[simp] theorem withPending_diags : (s.withPending fs).diags = s.diags := rfl
@[simp] theorem withPending_withPending (gs : List Frame) :
    (s.withPending fs).withPending gs = s.withPending gs := rfl

end withPending

section stores
variable (s : State) (off : Nat) (v : Byte)

@[simp] theorem ramWrite_cfg : (ramWrite s off v).cfg = s.cfg := rfl
@[simp] theorem ramWrite_mmr : (ramWrite s off v).mmr = s.mmr := rfl
@[simp] theorem ramWrite_lowsel : (ramWrite s off v).lowsel = s.lowsel := rfl
@[simp] theorem ramWrite_midsel : (ramWrite s off v).midsel = s.midsel := rfl
@[simp] theorem ramWrite_highsel : (ramWrite s off v).highsel = s.highsel := rfl
@[simp] theorem ramWrite_ram : (ramWrite s off v).ram = Memory.write s.cfg.ramInit s.ram off v := rfl
@[simp] theorem ramWrite_vram : (ramWrite s off v).vram = s.vram := rfl
@[simp] theorem ramWrite_pending : (ramWrite s off v).pending = s.pending := rfl
@[simp] theorem ramWrite_answer : (ramWrite s off v).answer = s.answer := rfl
@[simp] theorem ramWrite_diags : (ramWrite s off v).diags = s.diags := rfl

@[simp] theorem vramWrite_cfg : (vramWrite s off v).cfg = s.cfg := rfl
@[simp] theorem vramWrite_mmr : (vramWrite s off v).mmr = s.mmr := rfl
@[simp] theorem vramWrite_lowsel : (vramWrite s off v).lowsel = s.lowsel := rfl
@[simp] theorem vramWrite_midsel : (vramWrite s off v).midsel = s.midsel := rfl
@[simp] theorem vramWrite_highsel : (vramWrite s off v).highsel = s.highsel := rfl
@[simp] theorem vramWrite_ram : (vramWrite s off v).ram = s.ram := rfl
@[simp] theorem vramWrite_vram : (vramWrite s off v).vram = Memory.write s.cfg.vramInit s.vram off v := rfl
@[simp] theorem vramWrite_pending : (vramWrite s off v).pending = s.pending := rfl
@[simp] theorem vramWrite_answer : (vramWrite s off v).answer = s.answer := rfl
@[simp] theorem vramWrite_diags : (vramWrite s off v).diags = s.diags := rfl

end stores

section resolveBanks
variable (s : State) (v : Byte)

@[simp] theorem resolveBanks_cfg : (resolveBanks s v).cfg = s.cfg := rfl
@[simp] theorem resolveBanks_mmr : (resolveBanks s v).mmr = s.mmr := rfl
@[simp] theorem resolveBanks_lowsel :
    (resolveBanks s v).lowsel = (lowDecode s.cfg v).getD s.lowsel := rfl
@[simp] theorem resolveBanks_midsel : (resolveBanks s v).midsel = midDecode s.cfg v := rfl
@[simp] theorem resolveBanks_highsel : (resolveBanks s v).highsel = highDecode v := rfl
@[simp] theorem resolveBanks_ram : (resolveBanks s v).ram = s.ram := rfl
@[simp] theorem resolveBanks_vram : (resolveBanks s v).vram = s.vram := rfl
@[simp] theorem resolveBanks_pending : (resolveBanks s v).pending = s.pending := rfl
@[simp] theorem resolveBanks_answer : (resolveBanks s v).answer = s.answer := rfl
@[simp] theorem resolveBanks_diags : (resolveBanks s v).diags = s.diags ++ diagnosticsOf v := rfl

end resolveBanks

section powerOn
variable (c : Config)

@[simp] theorem powerOn_cfg : (State.powerOn c).cfg = c := rfl
@[simp] theorem powerOn_mmr : (State.powerOn c).mmr = c.mmrPowerOn := rfl
@[simp] theorem powerOn_lowsel : (State.powerOn c).lowsel = .rom0 := rfl
@[simp] theorem powerOn_midsel : (State.powerOn c).midsel = .cell 0 := rfl
@[simp] theorem powerOn_highsel : (State.powerOn c).highsel = .mainram := rfl
@[simp] theorem powerOn_ram : (State.powerOn c).ram = [] := rfl
@[simp] theorem powerOn_vram : (State.powerOn c).vram = [] := rfl
@[simp] theorem powerOn_pending : (State.powerOn c).pending = [] := rfl
@[simp] theorem powerOn_answer : (State.powerOn c).answer = .none := rfl
@[simp] theorem powerOn_diags : (State.powerOn c).diags = [] := rfl

end powerOn

end Sys2Proof.Machine
end

