-- ==== Sys2Proof/Laws/Ops.lean ====
section
/-! SUPPORT. For each shared operation, once, what it can do. -/

namespace Sys2Proof.Machine

/-- An access that goes on is inside its store and leaves the given state. -/
theorem accessing_next {s : State} {t : Target} {s' u : State} (h : accessing s t s' = .next u) :
    t.inStore s.cfg = true ∧ u = s' := by
  unfold accessing at h
  split at h
  · exact ⟨‹_›, by injection h with h; exact h.symm⟩
  · cases h

/-- An access inside its store goes on. -/
theorem accessing_inStore {s : State} {t : Target} (s' : State) (h : t.inStore s.cfg = true) :
    accessing s t s' = .next s' := by
  simp [accessing, h]

/-- What a write through a target can do: one byte of main RAM, one byte of video RAM, or nothing. -/
theorem targetWrite_cases (s : State) (t : Target) (d : Byte) :
    (∃ off, t = .ram off ∧ targetWrite s t d = ramWrite s off d) ∨
    (∃ off, t = .vram off ∧ targetWrite s t d = vramWrite s off d) ∨
    (t.right ≠ some .rw ∧ targetWrite s t d = s) := by
  cases t with
  | rom off => exact .inr (.inr ⟨by simp [Target.right], rfl⟩)
  | cart off => exact .inr (.inr ⟨by simp [Target.right], rfl⟩)
  | ram off => exact .inl ⟨off, rfl, rfl⟩
  | vram off => exact .inr (.inl ⟨off, rfl, rfl⟩)
  | none => exact .inr (.inr ⟨by simp [Target.right], rfl⟩)

/-- What `set_mmr(v)` can do: nothing, or write the MMR and resolve. -/
theorem setMmr_cases (s : State) (v : Byte) :
    (v = s.mmr ∧ setMmr s v = s) ∨ (v ≠ s.mmr ∧ setMmr s v = resolveBanks { s with mmr := v } v) := by
  unfold setMmr
  split
  · exact .inl ⟨‹_›, rfl⟩
  · exact .inr ⟨‹_›, rfl⟩

/-- What the low decoder can give: a selection the configuration can install, or KEEP. -/
theorem lowDecode_possible (c : Config) (v : Byte) (sel : LowSel) (h : lowDecode c v = some sel) :
    lowPossible c sel = true := by
  unfold lowDecode romDecode at h
  repeat' split at h
  all_goals first
    | (injection h with h; subst h; simp_all [lowPossible])
    | cases h

/-- What the mid decoder gives is a selection the configuration can install. -/
theorem midDecode_possible (c : Config) (v : Byte) : midPossible c (midDecode c v) = true := by
  unfold midDecode
  repeat' split
  all_goals simp_all [midPossible]

/-- `route` by windows: the top window is fixed, the others follow their own selection. -/
theorem route_cases (s : State) (a : Addr) :
    (a.toNat ≤ 0x7FFF ∧ route s a = lowTarget s.lowsel a.toNat) ∨
    (0x8000 ≤ a.toNat ∧ a.toNat ≤ 0xBFFF ∧ route s a = midTarget s.midsel a.toNat) ∨
    (0xC000 ≤ a.toNat ∧ a.toNat ≤ 0xE7FF ∧ route s a = highTarget s.highsel a.toNat) ∨
    (0xE800 ≤ a.toNat ∧ route s a = .ram a.toNat) := by
  unfold route windowOf
  split_ifs with h1 h2 h3
  · exact .inl ⟨h1, rfl⟩
  · exact .inr (.inl ⟨by omega, h2, rfl⟩)
  · exact .inr (.inr (.inl ⟨by omega, h3, rfl⟩))
  · exact .inr (.inr (.inr ⟨by omega, rfl⟩))

/-- What a step can do: nothing to serve, a reset input that is not raised, or the decoded operation. -/
theorem step_cases (s : State) :
    (s.pending = [] ∧ step s = .next s) ∨
    (∃ f rest, s.pending = f :: rest ∧ decode f = .error .noEvent ∧ step s = .next (s.withPending rest)) ∨
    (∃ f rest i, s.pending = f :: rest ∧ decode f = .ok i ∧ step s = exec i (s.withPending rest)) := by
  unfold step
  split
  · exact .inl ⟨‹_›, rfl⟩
  · rename_i f rest hp
    split
    · rename_i i hi
      exact .inr (.inr ⟨f, rest, i, hp, hi, rfl⟩)
    · rename_i he
      exact .inr (.inl ⟨f, rest, hp, he, rfl⟩)

end Sys2Proof.Machine
end

