-- ==== Sys2Proof/Laws/PerInstr.lean ====
section
/-! SUPPORT. A family of facts about the syntax of each operation: its encoding has the format and the fixed bits of
its row of the opcode table. -/

namespace Sys2Proof

/-- The mask of the rows fixed by `op` alone keeps `op`. -/
theorem packReq_and_opMask (op : BitVec 2) (a : Addr) (d : Byte) :
    packReq op a d &&& 0x3000000#26 = packReq op 0#16 0#8 := by
  apply BitVec.eq_of_getLsbD_eq
  intro k hk
  simp only [packReq, BitVec.getLsbD_and, BitVec.getLsbD_append]
  interval_cases k <;> simp

/-- The mask of the rows fixed by `op` and the port keeps both. -/
theorem packReq_and_portMask (op : BitVec 2) (p : Port) (d : Byte) :
    packReq op (ioAddr p) d &&& 0x300FF00#26 = packReq op (ioAddr p) 0#8 := by
  apply BitVec.eq_of_getLsbD_eq
  intro k hk
  simp only [packReq, ioAddr, BitVec.getLsbD_and, BitVec.getLsbD_append]
  interval_cases k <;> simp

end Sys2Proof

namespace Sys2Proof.Laws.EncodedRow

/-- The encoding of a well-formed operation is a request word that matches its row of the table, or, for `RESET`, the
raised reset input. -/
def Statement (i : Instr) : Prop :=
  i.wellFormed = true →
    (∃ w r, encode i = .busreq w ∧ r ∈ opcodeTable ∧ r.mnemonic = i.mnemonic ∧ r.admits w = true) ∨
    (i.mnemonic = "RESET" ∧ encode i = .signal 1#1)

theorem memRd (a : Addr) : Statement (.memRd a) := fun _ =>
  .inl ⟨_, ⟨"MEM_RD", 0x0000000#26, 0x3000000#26⟩, rfl, by simp [opcodeTable], rfl, by
    rw [OpcodeRow.admits, packReq_and_opMask]; rfl⟩

theorem memWr (a : Addr) (d : Byte) : Statement (.memWr a d) := fun _ =>
  .inl ⟨_, ⟨"MEM_WR", 0x1000000#26, 0x3000000#26⟩, rfl, by simp [opcodeTable], rfl, by
    rw [OpcodeRow.admits, packReq_and_opMask]; rfl⟩

theorem mmrRd : Statement .mmrRd := fun _ =>
  .inl ⟨_, ⟨"MMR_RD", 0x2003000#26, 0x300FF00#26⟩, rfl, by simp [opcodeTable], rfl, by
    rw [OpcodeRow.admits, packReq_and_portMask]; rfl⟩

theorem mmrWr (v : Byte) : Statement (.mmrWr v) := fun _ =>
  .inl ⟨_, ⟨"MMR_WR", 0x3003000#26, 0x300FF00#26⟩, rfl, by simp [opcodeTable], rfl, by
    rw [OpcodeRow.admits, packReq_and_portMask]; rfl⟩

theorem ioRdNosel (p : Port) : Statement (.ioRdNosel p) := fun _ =>
  .inl ⟨_, ⟨"IO_RD_NOSEL", 0x2000000#26, 0x3000000#26⟩, rfl, by simp [opcodeTable], rfl, by
    rw [OpcodeRow.admits, packReq_and_opMask]; rfl⟩

theorem ioWrNosel (p : Port) (d : Byte) : Statement (.ioWrNosel p d) := fun _ =>
  .inl ⟨_, ⟨"IO_WR_NOSEL", 0x3000000#26, 0x3000000#26⟩, rfl, by simp [opcodeTable], rfl, by
    rw [OpcodeRow.admits, packReq_and_opMask]; rfl⟩

theorem reset : Statement .reset := fun _ => .inr ⟨rfl, rfl⟩

end Sys2Proof.Laws.EncodedRow
end

