-- ==== Sys2Proof/Tests/Slice0.lean ====
section
/-! SUPPORT. Tests of our own: the spec's decode words and test vectors (95_test_vectors.md), the checks refusing
ill-formed terms, and a concrete witness for the hypotheses of each statement. Expected results come from the spec's
tables; each test names its row. -/

namespace Sys2Proof.Tests

open Sys2Proof.Machine

/-! ## A small state to test on -/

/-- The configuration of the "standard start state": of the example images, the bytes the tests read. -/
def stdConfig : Config where
  openBus          := 0xFF
  rom              := ⟨[(0x0000, 0x40), (0x0005, 0x45), (0x8005, 0x85), (0x10001, 0xC1)], 0x00⟩
  cartRomPresent   := true
  cartRom          := ⟨[(0x7FFF, 0x3F)], 0x00⟩
  ramSize          := 0x14000
  midXCell         := .cell4
  invalidLowPolicy := .unmap
  mmrPowerOn       := 0x00
  ramInit          := ⟨[], 0x00⟩
  vramInit         := ⟨[], 0x00⟩

/-- The standard start state: after RESET, `mmr = 0x00`. -/
def std : State := State.powerOn stdConfig

/-- The standard state with the MMR and the selections given. -/
def mapped (v : Byte) (lo : LowSel) (mi : MidSel) (hi : HighSel) : State :=
  { std with mmr := v, lowsel := lo, midsel := mi, highsel := hi }

/-- A configuration with 64 KiB of RAM, no cartridge and the other policy. -/
def bareConfig : Config :=
  { stdConfig with cartRomPresent := false, ramSize := 0x10000, midXCell := .cell3, invalidLowPolicy := .retain }

/-- The next state's value of a field, if there is a next state. -/
def after {α : Type} (o : Host.Outcome State Fault Refusal) (f : State → α) : Option α :=
  match o with
  | .next s => some (f s)
  | .fault _ => none
  | .refused _ => none

/-! ## Decoding: words written out from the formats (R60 to R62; rows of 2.1) -/

theorem test_decode_memRd : decodeTableWord 32 0x0FFFF5A = some (.memRd 0xFFFF) := by decide
theorem test_decode_memWr : decodeTableWord 32 0x11000AA = some (.memWr 0x1000 0xAA) := by decide
theorem test_decode_mmrRd_high_byte_ignored : decodeTableWord 32 0x2123000 = some .mmrRd := by decide
theorem test_decode_mmrWr : decodeTableWord 32 0x3043004 = some (.mmrWr 0x04) := by decide
theorem test_decode_ioRdNosel : decodeTableWord 32 0x2301200 = some (.ioRdNosel 0x12) := by decide
theorem test_decode_ioWrNosel : decodeTableWord 32 0x30031FF = some (.ioWrNosel 0x31 0xFF) := by decide
theorem test_decode_reset : decodeTableWord 8 1 = some .reset := by decide
theorem test_decode_reset_not_raised : decodeTableWord 8 0 = none := by decide
theorem test_decode_bits_above_format : frameOfBits 32 0x4000000 = .error (.bitsAboveFormat 0x4000000) := by decide
theorem test_decode_unknown_width : frameOfBits 16 0 = .error (.unknownWidth 16) := by decide

/-- `op`, then `A`, then `D`, each bit written out (R60). -/
theorem test_encode_memWr : encode (.memWr 0x1000 0xAA) = .busreq 0b01_0001000000000000_10101010 := by decide
theorem test_encode_mmrRd : encode .mmrRd = .busreq 0b10_0000000000110000_00000000 := by decide
theorem test_text_memWr :
    Instr.text (.memWr 0x1000 0xAA) = ['M', 'W', 'R', ' ', '1', '0', '0', '0', ',', ' ', 'A', 'A'] := by decide

/-! ## Checks refuse ill-formed terms -/

theorem test_ioRdNosel_of_claimed_port_ill_formed : (Instr.ioRdNosel 0x30).wellFormed = false := by decide
theorem test_ioWrNosel_of_claimed_port_ill_formed : (Instr.ioWrNosel 0x30 0x00).wellFormed = false := by decide
theorem test_ramSize_below_cell_refused : ¬ ({ stdConfig with ramSize := 0x11000 } : Config).Admitted := by decide
theorem test_ramSize_below_base_refused : ¬ ({ stdConfig with ramSize := 0x8000 } : Config).Admitted := by decide
theorem test_memory_unsorted_refused : ¬ Memory.wf 0x10000 ⟨[], 0⟩ [(2, 1), (1, 1)] := by decide
theorem test_memory_initial_byte_refused : ¬ Memory.wf 0x10000 ⟨[], 0⟩ [(1, 0)] := by decide

/-! ## One step of each operation (rows of 2.2, 2.6 and 2.7) -/

theorem test_memRd_rom2_A2 :
    after (exec (.memRd 0x0001) (mapped 0x02 .rom2 (.cell 0) .mainram)) (·.answer) = some (.data 0xC1) := by decide
theorem test_memRd_cartridge_A3 :
    after (exec (.memRd 0x7FFF) (mapped 0x03 .cartrom (.cell 0) .mainram)) (·.answer) = some (.data 0x3F) := by decide
theorem test_memWr_alias_A6 :
    after (exec (.memWr 0x6800 0x77) (mapped 0x08 .ramHi (.cell 0) .mainram)) (·.ram) = some [(0xE800, 0x77)] := by
  decide
theorem test_memWr_rom_dropped_A5 :
    exec (.memWr 0x0100 0x55) std = .next { std with answer := .none } := rfl
theorem test_mmrRd_M1 : after (exec .mmrRd std) (·.answer) = some (.data 0x00) := by decide
theorem test_mmrRd_keeps_bit7_M2 :
    after (exec .mmrRd (mapped 0x8C .unmapped (.cell 0) .mainram)) (·.answer) = some (.data 0x8C) := by decide
theorem test_mmrWr_invalid_low_M2 :
    after (exec (.mmrWr 0x8C) std) (fun t => (t.mmr, t.lowsel, t.diags)) =
      some (0x8C, .unmapped, [.invalidLow 0x8C]) := by decide
theorem test_mmrWr_stale_value_M7 :
    after (exec (.mmrWr 0x04) (mapped 0x04 .rom0 (.cell 0) .mainram)) (fun t => (t.mmr, t.lowsel)) =
      some (0x04, .rom0) := by decide
theorem test_ioRdNosel_drives_nothing : after (exec (.ioRdNosel 0xB3) std) (·.answer) = some .notDriven := by decide
theorem test_ioWrNosel_M11 : after (exec (.ioWrNosel 0x71 0x10) std) (·.mmr) = some 0x00 := by decide
theorem test_reset_R1 :
    after (exec .reset (mapped 0x7F .unmapped (.cell 4) .video)) (fun t => (t.mmr, t.lowsel, t.midsel, t.highsel)) =
      some (0x7F, .rom0, .cell 0, .mainram) := by decide

/-! ## The shared operations -/

/-- 2.3, with a cartridge, and its last row by the policy RETAIN (M9). -/
theorem test_lowDecode_table :
    [0x00, 0x01, 0x02, 0x03, 0x07, 0x08, 0x0C].map (lowDecode stdConfig) =
      [some .rom0, some .rom1, some .rom2, some .cartrom, some .ramLo, some .ramHi, some .unmapped] ∧
    lowDecode bareConfig 0x03 = some .unmapped ∧ lowDecode bareConfig 0x0C = none := by decide

/-- 2.4. -/
theorem test_midDecode_table :
    [0x00, 0x10, 0x20, 0x30].map (midDecode stdConfig) = [.cell 0, .cell 1, .cell 2, .cell 4] ∧
    midDecode bareConfig 0x30 = .unmapped ∧ midDecode { stdConfig with midXCell := .cell3 } 0x30 = .cell 3 := by decide

/-- 2.5, the row of 0x7F at every window edge. -/
theorem test_route_window_edges :
    [0x0000, 0x7FFF, 0x8000, 0xBFFF, 0xC000, 0xDFFF, 0xE000, 0xE7FF, 0xE800, 0xFFFF].map
        (route (mapped 0x7F .unmapped (.cell 4) .video)) =
      [.none, .none, .ram 0x10000, .ram 0x13FFF, .vram 0x0, .vram 0x1FFF, .none, .none, .ram 0xE800, .ram 0xFFFF] := by
  decide

/-- Writing the initial content back leaves no entry. -/
theorem test_write_initial_content :
    Memory.write ⟨[], 0⟩ (Memory.write ⟨[], 0⟩ [] 5 1) 5 0 = [] := by decide

/-- The machine of State.reset serves the table's rows as its first input. -/
theorem test_reset_serves_every_row :
    [0x0000000, 0x1000000, 0x2003000, 0x3003000, 0x2000000, 0x3000000].map
        (fun w => after (step (State.reset.withFetchWord 32 w)) (fun _ => true)) =
      [some true, some true, some true, some true, some true, some true] ∧
    after (step (State.reset.withFetchWord 8 1)) (fun _ => true) = some true := ⟨rfl, rfl⟩

/-- With nothing handed in, nothing happens. -/
theorem test_reset_idles : step State.reset = .next State.reset := rfl

/-! ## Witnesses: a state and operands that meet a statement's hypotheses -/

/-- The premise `Inv`, also with selections other than those of reset. -/
theorem witness_inv : std.Inv ∧ (mapped 0x7F .unmapped (.cell 4) .video).Inv ∧ (State.powerOn bareConfig).Inv :=
  ⟨⟨by decide, by decide, by decide, by decide, by decide⟩, ⟨by decide, by decide, by decide, by decide, by decide⟩,
    ⟨by decide, by decide, by decide, by decide, by decide⟩⟩

theorem witness_DecodeOfEncode : (Instr.ioRdNosel 0x31).wellFormed = true ∧ (Instr.ioWrNosel 0xFF 0xFF).wellFormed = true :=
  ⟨rfl, rfl⟩

/-- Pairs that differ in `D` of a read, in the high byte of an I/O read and in both of an unclaimed I/O write, and one
pair for the clause of a memory write and of an MMR write, where only ignored bits may differ. -/
theorem witness_IgnoredBitsHaveNoEffect :
    [(0x00000FF, 0x0000000), (0x2FF3000, 0x20030FF), (0x3FF31FF, 0x3003100), (0x1FFFFFF, 0x1FFFFFF),
        (0x3FF3004, 0x3003004)].all (fun p : ReqWord × ReqWord => decide (
      reqOp p.1 = reqOp p.2 ∧ portOf (reqA p.1) = portOf (reqA p.2) ∧
      (reqOp p.1 = 0b00#2 ∨ reqOp p.1 = 0b01#2 → reqA p.1 = reqA p.2) ∧
      (reqOp p.1 = 0b01#2 ∨ (reqOp p.1 = 0b11#2 ∧ portOf (reqA p.1) = 0x30#8) → reqD p.1 = reqD p.2))) = true := by
  decide

theorem witness_StepRunsDecodedRequest :
    (std.withPending [.busreq 0x3003004]).pending = [.busreq 0x3003004] ∧
    decode (.busreq 0x3003004) = .ok (.mmrWr 0x04) := by decide

theorem witness_StepWithoutEventChangesNothing :
    std.pending = [] ∧ (std.withPending [.signal 0]).pending = [.signal 0] := by decide

/-- Both clauses of the MMR write, the second also with an invalid source (also for `MmrWriteIsIdempotent`). -/
theorem witness_MmrWriteComparesThenResolves :
    (0x00 : Byte) = std.mmr ∧ (0x01 : Byte) ≠ std.mmr ∧ (0x0C : Byte) ≠ std.mmr := by decide

/-- A value for each clause of the low window, and the ends of the window. -/
theorem witness_LowWindowAfterMmrWrite :
    (0x02 : Byte) ≠ (mapped 0xFF .rom0 (.cell 0) .mainram).mmr ∧
    [0x00, 0x02].all (fun v => decide (v / 4 % 4 = 0 ∧ v % 4 < 3)) = true ∧
    (0x03 / 4 % 4 = 0 ∧ 0x03 % 4 = 3 ∧ stdConfig.cartRomPresent = true ∧ bareConfig.cartRomPresent = false) ∧
    0x04 / 4 % 4 = 1 ∧ 0x0B / 4 % 4 = 2 ∧ 0x0C / 4 % 4 = 3 ∧ stdConfig.invalidLowPolicy = .unmap ∧
    (0x0000 : Addr).toNat ≤ 0x7FFF ∧ (0x7FFF : Addr).toNat ≤ 0x7FFF := by decide

theorem witness_MidWindowAfterMmrWrite :
    (0x30 : Byte) ≠ std.mmr ∧ 0x00 / 16 % 4 < 3 ∧ 0x2F / 16 % 4 < 3 ∧ 0x30 / 16 % 4 = 3 ∧
    0x10000 < stdConfig.ramSize ∧ stdConfig.midXCell = .cell4 ∧
    ({ stdConfig with midXCell := .cell3 } : Config).midXCell = .cell3 ∧ bareConfig.ramSize ≤ 0x10000 ∧
    0x8000 ≤ (0x8000 : Addr).toNat ∧ (0xBFFF : Addr).toNat ≤ 0xBFFF := by decide

theorem witness_HighWindowAfterMmrWrite :
    (0x40 : Byte) ≠ std.mmr ∧ 0x80 / 64 % 2 = 0 ∧ 0x40 / 64 % 2 = 1 ∧
    0xC000 ≤ (0xC000 : Addr).toNat ∧ (0xDFFF : Addr).toNat ≤ 0xDFFF ∧ 0xE000 ≤ (0xE000 : Addr).toNat ∧
    (0xE7FF : Addr).toNat ≤ 0xE7FF := by decide

/-- Under each policy. -/
theorem witness_InvalidLowSourceIsNeverFatal :
    (0x0C : Byte) ≠ std.mmr ∧ (0x0C : Byte).toNat / 4 % 4 = 3 ∧ std.cfg.invalidLowPolicy = .unmap ∧
    (0xFF : Byte) ≠ (State.powerOn bareConfig).mmr ∧ (0xFF : Byte).toNat / 4 % 4 = 3 ∧
    (State.powerOn bareConfig).cfg.invalidLowPolicy = .retain := by decide

theorem witness_MissingCollaboratorIsUnmapped :
    (0x33 : Byte) ≠ (State.powerOn bareConfig).mmr ∧ (0x33 : Byte).toNat % 16 = 3 ∧
    (State.powerOn bareConfig).cfg.cartRomPresent = false ∧ (0x33 : Byte).toNat / 16 % 4 = 3 ∧
    (State.powerOn bareConfig).cfg.ramSize = 0x10000 ∧ (0x33 : Byte).toNat / 4 % 4 ≠ 3 := by decide

theorem witness_StaleMmrAfterReset : (0x84 : Byte) ≠ (mapped 0x04 .ramLo (.cell 0) .mainram).mmr := by decide

/-- A value and its partner in bit 7, both other than the MMR's. -/
theorem witness_BitSevenSelectsNothing :
    (0x04 : Byte) ≠ std.mmr ∧ (0x04 : Byte) ^^^ 0x80#8 ≠ std.mmr ∧
    exec (.mmrWr ((0x04 : Byte) ^^^ 0x80#8)) std = .next { std with mmr := 0x84, lowsel := .ramLo } := by
  refine ⟨by decide, by decide, rfl⟩

/-- Each clause: an MMR write that emits one, and one that does not. -/
theorem witness_DiagnosticOnlyOnInvalidLow :
    exec (.mmrWr 0x0C) std = .next { std with mmr := 0x0C, lowsel := .unmapped, diags := [.invalidLow 0x0C] } ∧
    exec (.mmrWr 0x04) std = .next { std with mmr := 0x04, lowsel := .ramLo } := ⟨rfl, rfl⟩

/-- The ends of each window. -/
theorem witness_WindowsTileTheSpace :
    [0x0000, 0x7FFF, 0x8000, 0xBFFF, 0xC000, 0xE7FF, 0xE800, 0xFFFF].map windowOf =
      [.low, .low, .mid, .mid, .high, .high, .top, .top] ∧
    std.lowsel = (mapped 0x00 .rom0 (.cell 1) .video).lowsel ∧
    std.midsel = (mapped 0x00 .ramLo (.cell 0) .video).midsel ∧
    std.highsel = (mapped 0x00 .ramLo (.cell 1) .mainram).highsel := by decide

theorem witness_WindowBitsAgreeWithBounds :
    windowOf 0xDFFF = .high ∧ windowOf 0xE000 = .high := by decide

/-- A pair of addresses of one window for each store. -/
theorem witness_OffsetWithinBankIsKept :
    windowOf 0x0000 = windowOf 0x7FFF ∧ (0x0000 : Addr).toNat ≤ (0x7FFF : Addr).toNat ∧
    route std 0x7FFF = .rom 0x7FFF ∧
    route (mapped 0x03 .cartrom (.cell 0) .mainram) 0x7FFF = .cart 0x7FFF ∧
    windowOf 0x8000 = windowOf 0xBFFF ∧ route std 0xBFFF = .ram 0x3FFF ∧
    windowOf 0xC000 = windowOf 0xDFFF ∧ route (mapped 0x40 .rom0 (.cell 0) .video) 0xDFFF = .vram 0x1FFF := by decide

/-- Cells 3 and 4, each under the configuration that installs it. -/
theorem witness_AliasTableIsExact :
    (mapped 0x30 .rom0 (.cell 4) .mainram).Inv ∧
    ({ State.powerOn { stdConfig with midXCell := .cell3 } with midsel := .cell 3 } : State).Inv :=
  ⟨⟨by decide, by decide, by decide, by decide, by decide⟩, ⟨by decide, by decide, by decide, by decide, by decide⟩⟩

theorem witness_AliasedWriteIsSeen :
    (mapped 0x08 .ramHi (.cell 0) .mainram).Inv ∧
    route (mapped 0x08 .ramHi (.cell 0) .mainram) 0x6800 = .ram 0xE800 ∧
    route (mapped 0x08 .ramHi (.cell 0) .mainram) 0xE800 = .ram 0xE800 :=
  ⟨⟨by decide, by decide, by decide, by decide, by decide⟩, by decide, by decide⟩

/-- The last offset of each store, and the clause of cell 4. -/
theorem witness_OffsetsStayInStores :
    route (mapped 0x02 .rom2 (.cell 0) .mainram) 0x7FFF = .rom 0x17FFF ∧
    route (mapped 0x03 .cartrom (.cell 0) .mainram) 0x7FFF = .cart 0x7FFF ∧
    route std 0xFFFF = .ram 0xFFFF ∧
    route (mapped 0x30 .rom0 (.cell 4) .mainram) 0xBFFF = .ram 0x13FFF ∧
    route (mapped 0x40 .rom0 (.cell 0) .video) 0xDFFF = .vram 0x1FFF := by decide

theorem witness_TopWindowIsFixed :
    0xE800 ≤ (0xE800 : Addr).toNat ∧ 0xE800 ≤ (0xFFFF : Addr).toNat ∧
    exec (.mmrWr 0x40) std = .next { std with mmr := 0x40, highsel := .video } := ⟨by decide, by decide, rfl⟩

theorem witness_WriteToReadOnlyIsDropped :
    (route std 0x0100).right = some .ro ∧ route (mapped 0x40 .rom0 (.cell 0) .video) 0xE000 = .none := by decide

theorem witness_UnmappedAccessIsOpenBus : route (mapped 0x0C .unmapped (.cell 0) .mainram) 0x0000 = .none := by decide

theorem witness_RomsAreNeverWritten :
    step (std.withPending [.busreq 0x1000055]) = .next std ∧ route std 0x0000 = .rom 0x0000 ∧
    route (mapped 0x03 .cartrom (.cell 0) .mainram) 0x7FFF = .cart 0x7FFF := ⟨rfl, by decide, by decide⟩

theorem witness_NextRequestSeesNewMapping : std.Inv ∧ (0x04 : Byte) ≠ std.mmr := ⟨witness_inv.1, by decide⟩

theorem witness_TwoByteReadRoutesEachByte :
    std.Inv ∧ (0x7FFF : Addr) = 0x7FFF#16 ∧ (0xE7FF : Addr) = 0xE7FF#16 ∧ (0xFFFF : Addr) = 0xFFFF#16 :=
  ⟨witness_inv.1, rfl, rfl, rfl⟩

/-- Two states of one mapping, and an operation that changes the selections. -/
theorem witness_OnlyResolutionChangesSelections :
    std.SameMapping { std with mmr := 0x80 } ∧
    exec (.mmrWr 0x04) std = .next { std with mmr := 0x04, lowsel := .ramLo } ∧
    ¬ std.SameMapping { std with mmr := 0x04, lowsel := .ramLo } :=
  ⟨⟨rfl, rfl, rfl⟩, rfl, fun h => absurd h.1 (by decide)⟩

theorem witness_SingleWriters :
    exec (.mmrWr 0x04) std = .next { std with mmr := 0x04, lowsel := .ramLo } ∧
    ({ std with mmr := 0x04, lowsel := .ramLo } : State).mmr ≠ std.mmr ∧
    exec (.memWr 0xFFFF 0xE1) std = .next { std with ram := [(0xFFFF, 0xE1)] } ∧
    ({ std with ram := [(0xFFFF, 0xE1)] } : State).ram ≠ std.ram := ⟨rfl, by decide, rfl, by decide⟩

theorem witness_HiddenBytesAreKept :
    std.Inv ∧ ∀ a d, Instr.memWr a d ∉ [.mmrWr 0x40, .memRd 0xC000, .reset] :=
  ⟨witness_inv.1, fun a d => by simp⟩

/-- The ends of each window after a reset. -/
theorem witness_BootMapping :
    (0x7FFF : Addr).toNat ≤ 0x7FFF ∧ 0x8000 ≤ (0x8000 : Addr).toNat ∧ (0xBFFF : Addr).toNat ≤ 0xBFFF ∧
    0xC000 ≤ (0xC000 : Addr).toNat := by decide

theorem witness_RamSizesAreThoseAdmitted :
    ramSizeAdmitted .cell3 0x10000 ∧ ramSizeAdmitted .cell3 0x10001 ∧ ramSizeAdmitted .cell4 0x14000 := by decide

theorem witness_StepKeepsInvariant :
    std.Inv ∧ step (std.withPending [.busreq 0x1FFFFE1]) = .next { std with ram := [(0xFFFF, 0xE1)] } :=
  ⟨witness_inv.1, rfl⟩

theorem witness_PowerOnSatisfiesInvariant : stdConfig.Admitted ∧ bareConfig.Admitted := by decide

/-- Explained by 0 after a reset, and by the MMR's value after a write. -/
theorem witness_StepKeepsMappingExplained :
    (mapped 0x04 .rom0 (.cell 0) .mainram).MappingExplained ∧
    (mapped 0x04 .ramLo (.cell 0) .mainram).MappingExplained ∧
    step ((mapped 0x04 .rom0 (.cell 0) .mainram).withPending [.signal 1]) =
      .next (mapped 0x04 .rom0 (.cell 0) .mainram) :=
  ⟨.inr ⟨rfl, rfl, rfl⟩, .inl ⟨rfl, rfl, rfl⟩, rfl⟩

theorem witness_RunServesRequestsInOrder :
    (std.withPending ([.mmrWr 0x04, .memWr 0x1000 0xAA, .memRd 0x1000].map encode)).Inv ∧
    (∀ i ∈ [Instr.mmrWr 0x04, .memWr 0x1000 0xAA, .memRd 0x1000], i.wellFormed = true) :=
  ⟨⟨by decide, by decide, by decide, by decide, by decide⟩, by decide⟩

theorem witness_EqualContentsAreEqualData :
    Memory.wf 0x10000 ⟨[], 0⟩ [(1, 1), (2, 2)] ∧
    Memory.wf 0x10000 ⟨[], 0⟩ (Memory.write ⟨[], 0⟩ [(2, 2)] 1 1) ∧
    Memory.write ⟨[], 0⟩ [(2, 2)] 1 1 = [(1, 1), (2, 2)] := by decide

end Sys2Proof.Tests
end

section
/-! The statements of 10_state.md: what an operation that completes can have done, the frames of its parts, and from
these who changes the configuration, the MMR and the two stores. -/

namespace Sys2Proof.Machine

/-! ## Frames of the shared operations -/

/-- A write through a target keeps every field that the two store primitives keep. -/
theorem targetWrite_keeps {α : Type} (field : State → α)
    (hram : ∀ s off d, field (ramWrite s off d) = field s)
    (hvram : ∀ s off d, field (vramWrite s off d) = field s)
    (s : State) (t : Target) (d : Byte) : field (targetWrite s t d) = field s := by
  obtain ⟨off, -, h⟩ | ⟨off, -, h⟩ | ⟨-, h⟩ := targetWrite_cases s t d <;> rw [h]
  · exact hram s off d
  · exact hvram s off d

@[simp] theorem targetWrite_cfg (s : State) (t : Target) (d : Byte) : (targetWrite s t d).cfg = s.cfg :=
  targetWrite_keeps State.cfg ramWrite_cfg vramWrite_cfg s t d

@[simp] theorem targetWrite_mmr (s : State) (t : Target) (d : Byte) : (targetWrite s t d).mmr = s.mmr :=
  targetWrite_keeps State.mmr ramWrite_mmr vramWrite_mmr s t d

/-- A write to a target that is not writable is dropped (R126). -/
theorem targetWrite_of_right_ne_rw {t : Target} (h : t.right ≠ some .rw) (s : State) (d : Byte) :
    targetWrite s t d = s := by
  obtain ⟨off, rfl, -⟩ | ⟨off, rfl, -⟩ | ⟨-, hs⟩ := targetWrite_cases s t d
  · exact absurd rfl h
  · exact absurd rfl h
  · exact hs

section setMmr
variable (s : State) (v : Byte)

@[simp] theorem setMmr_mmr : (setMmr s v).mmr = v := by
  obtain ⟨hv, h⟩ | ⟨-, h⟩ := setMmr_cases s v <;> rw [h]
  · exact hv.symm
  · exact resolveBanks_mmr _ v

@[simp] theorem setMmr_cfg : (setMmr s v).cfg = s.cfg := by
  obtain ⟨-, h⟩ | ⟨-, h⟩ := setMmr_cases s v <;> simp [h]

@[simp] theorem setMmr_ram : (setMmr s v).ram = s.ram := by
  obtain ⟨-, h⟩ | ⟨-, h⟩ := setMmr_cases s v <;> simp [h]

@[simp] theorem setMmr_vram : (setMmr s v).vram = s.vram := by
  obtain ⟨-, h⟩ | ⟨-, h⟩ := setMmr_cases s v <;> simp [h]

end setMmr

/-! ## What an operation that completes can have done -/

/-- An operation that completes only answered, or it was a memory write inside its store, an MMR write or a reset. -/
theorem exec_next_cases {i : Instr} {s t : State} (h : exec i s = .next t) :
    (∃ r, t = respond s r) ∨
    (∃ a d, i = .memWr a d ∧ (route s a).inStore s.cfg = true ∧
      t = respond (targetWrite s (route s a) d) .none) ∨
    (∃ v, i = .mmrWr v ∧ t = respond (setMmr s v) .none) ∨
    (i = .reset ∧ t = respond (resolveBanks s 0x00#8) .none) := by
  cases i with
  | memRd a => exact .inl ⟨_, (accessing_next h).2⟩
  | memWr a d => exact .inr (.inl ⟨a, d, rfl, accessing_next h⟩)
  | mmrRd => cases h; exact .inl ⟨_, rfl⟩
  | mmrWr v => cases h; exact .inr (.inr (.inl ⟨v, rfl, rfl⟩))
  | ioRdNosel p => cases h; exact .inl ⟨_, rfl⟩
  | ioWrNosel p d => cases h; exact .inl ⟨_, rfl⟩
  | reset => cases h; exact .inr (.inr (.inr ⟨rfl, rfl⟩))

/-- No operation changes the configuration (R29). -/
theorem exec_next_cfg {i : Instr} {s t : State} (h : exec i s = .next t) : t.cfg = s.cfg := by
  obtain ⟨r, rfl⟩ | ⟨a, d, -, -, rfl⟩ | ⟨v, -, rfl⟩ | ⟨-, rfl⟩ := exec_next_cases h <;> simp

/-- No step changes the configuration (R29). -/
theorem step_next_cfg {s t : State} (h : step s = .next t) : t.cfg = s.cfg := by
  obtain ⟨-, hs⟩ | ⟨f, rest, -, -, hs⟩ | ⟨f, rest, i, -, -, hs⟩ := step_cases s <;> rw [hs] at h
  · cases h; rfl
  · cases h; rfl
  · exact (exec_next_cfg h).trans (withPending_cfg s rest)

/-! ## Writes that reach nothing writable -/

/-- What is installed in the low window, if it is not writable, lies inside its store: a ROM bank and the cartridge ROM
are as long as the window (R102). -/
theorem lowTarget_inStore_of_right_ne_rw (c : Config) {sel : LowSel} {a : Nat} (ha : a ≤ 0x7FFF)
    (h : (lowTarget sel a).right ≠ some .rw) : (lowTarget sel a).inStore c = true := by
  cases sel with
  | rom0 | rom1 | rom2 | cartrom =>
    simp only [lowTarget, Target.inStore, romSize, cartRomSize, decide_eq_true_eq]
    omega
  | ramLo | ramHi => exact absurd rfl h
  | unmapped => rfl

/-- A target that is not writable lies inside its store, whatever is installed: above the low window it is nothing. -/
theorem route_inStore_of_right_ne_rw {s : State} {a : Addr} (h : (route s a).right ≠ some .rw) :
    (route s a).inStore s.cfg = true := by
  obtain ⟨ha, hr⟩ | ⟨-, -, hr⟩ | ⟨-, -, hr⟩ | ⟨-, hr⟩ := route_cases s a <;> rw [hr] at h ⊢
  · exact lowTarget_inStore_of_right_ne_rw s.cfg ha h
  · cases hm : s.midsel with
    | cell n => rw [hm] at h; exact absurd rfl h
    | unmapped => rfl
  · cases hh : s.highsel with
    | mainram => rw [hh] at h; exact absurd rfl h
    | video =>
      rw [hh] at h
      simp only [highTarget] at h ⊢
      split at h
      · exact absurd rfl h
      · simp [*, Target.inStore]
  · exact absurd rfl h

/-- A memory write routed to a target that is not writable completes and only answers (R121, R126). -/
theorem exec_memWr_of_right_ne_rw {s : State} {a : Addr} (h : (route s a).right ≠ some .rw) (d : Byte) :
    exec (.memWr a d) s = .next (respond s .none) :=
  calc exec (.memWr a d) s
      = accessing s (route s a) (respond (targetWrite s (route s a) d) .none) := rfl
    _ = accessing s (route s a) (respond s .none) := by rw [targetWrite_of_right_ne_rw h]
    _ = .next (respond s .none) := accessing_inStore _ (route_inStore_of_right_ne_rw h)

/-- What is routed to a read-only target stays inside its store, and a write to it is ignored (R29). -/
theorem readOnly_inStore_and_ignores {s : State} {a : Addr} (h : (route s a).right = some .ro) :
    (route s a).inStore s.cfg = true ∧ ∀ d, exec (.memWr a d) s = .next (respond s .none) := by
  have hne : (route s a).right ≠ some .rw := by simp [h]
  exact ⟨route_inStore_of_right_ne_rw hne, exec_memWr_of_right_ne_rw hne⟩

/-! ## The values after reset -/

/-- With nothing listed, a store reads as its initial contents (R50). -/
@[simp] theorem read_nil (init : Image) (off : Nat) : Memory.read init [] off = init.byte off := rfl

/-! ## The statements -/

/-- Settles O45, from the fields of the power-on state: both stores list nothing, so they read as their initial
contents. -/
theorem resetStateValues : Obligations.ResetStateValues :=
  ⟨powerOn_mmr _, powerOn_lowsel _, powerOn_midsel _, powerOn_highsel _, rfl,
    fun off => read_nil _ off, fun off => read_nil _ off⟩

/-- Settles O36: no operation changes the configuration, and what is routed to a ROM lies inside it and is not
writable, so a write to it is dropped. -/
theorem romsAreNeverWritten : Obligations.RomsAreNeverWritten := by
  refine ⟨fun s t => step_next_cfg, fun s a off => ⟨fun h => ?rom, fun h => ?cart⟩⟩
  case rom =>
    have hro : (route s a).right = some .ro := by rw [h]; rfl
    obtain ⟨hin, hwr⟩ := readOnly_inStore_and_ignores hro
    have hoff : off < romSize := by simpa [h, Target.inStore] using hin
    exact ⟨hoff, hro, fun d => ⟨.none, hwr d⟩⟩
  case cart =>
    have hro : (route s a).right = some .ro := by rw [h]; rfl
    obtain ⟨hin, hwr⟩ := readOnly_inStore_and_ignores hro
    have hoff : off < cartRomSize := by simpa [h, Target.inStore] using hin
    exact ⟨hoff, hro, fun d => ⟨.none, hwr d⟩⟩

/-- Settles O40, by what an operation that completes can have done: only an MMR write sets the MMR, to the value
written, and only a memory write reaches a store. -/
theorem singleWriters : Obligations.SingleWriters := by
  intro i s t h
  obtain ⟨r, rfl⟩ | ⟨a, d, rfl, -, rfl⟩ | ⟨v, rfl, rfl⟩ | ⟨rfl, rfl⟩ := exec_next_cases h
  · exact ⟨fun hmmr => absurd (respond_mmr s r) hmmr, fun hst => by simp at hst⟩
  · exact ⟨fun hmmr => absurd (targetWrite_mmr s (route s a) d) hmmr, fun _ => ⟨a, d, rfl⟩⟩
  · exact ⟨fun _ => congrArg Instr.mmrWr (setMmr_mmr s v).symm, fun hst => by simp at hst⟩
  · exact ⟨fun hmmr => absurd (resolveBanks_mmr s 0x00#8) hmmr, fun hst => by simp at hst⟩

end Sys2Proof.Machine
end

section
/-! The statements of 20_memory.md: the windows an address lies in, the target each window gives, and who changes the
selections. -/

namespace Sys2Proof.Machine

/-! ## The windows tile the CPU space (R40) -/

/-- No gap: every address lies within the base and size of its window. -/
theorem windowOf_contains (a : Addr) :
    (windowOf a).base ≤ a.toNat ∧ a.toNat < (windowOf a).base + (windowOf a).size := by
  have ha := a.isLt
  unfold windowOf
  split_ifs <;> simp only [Window.base, Window.size] <;> omega

/-- No overlap: a window that contains an address is the one the address has. -/
theorem windowOf_eq_of_contains {a : Addr} {w : Window} (h : w.base ≤ a.toNat ∧ a.toNat < w.base + w.size) :
    windowOf a = w := by
  cases w <;> simp only [Window.base, Window.size] at h
  case low => exact if_pos (by omega)
  case mid => rw [windowOf, if_neg (by omega), if_pos (by omega)]
  case high => rw [windowOf, if_neg (by omega), if_neg (by omega), if_pos (by omega)]
  case top => rw [windowOf, if_neg (by omega), if_neg (by omega), if_neg (by omega)]

/-- An address lies in a window exactly when it lies within the window's base and size. -/
theorem windowOf_eq_iff (a : Addr) (w : Window) :
    windowOf a = w ↔ w.base ≤ a.toNat ∧ a.toNat < w.base + w.size :=
  ⟨fun h => h ▸ windowOf_contains a, windowOf_eq_of_contains⟩

/-- The first and last address of each window, written out (R40). -/
theorem windowOf_bounds (a : Addr) :
    (windowOf a = .low ↔ 0x0000 ≤ a.toNat ∧ a.toNat ≤ 0x7FFF) ∧
    (windowOf a = .mid ↔ 0x8000 ≤ a.toNat ∧ a.toNat ≤ 0xBFFF) ∧
    (windowOf a = .high ↔ 0xC000 ≤ a.toNat ∧ a.toNat ≤ 0xE7FF) ∧
    (windowOf a = .top ↔ 0xE800 ≤ a.toNat ∧ a.toNat ≤ 0xFFFF) := by
  simp only [windowOf_eq_iff, Window.base, Window.size]
  omega

/-! ## The target of each window (R123) -/

section route
variable {a : Addr} (s : State)

theorem route_low (h : windowOf a = .low) : route s a = lowTarget s.lowsel a.toNat := by
  simp only [route, h]

theorem route_mid (h : windowOf a = .mid) : route s a = midTarget s.midsel a.toNat := by
  simp only [route, h]

theorem route_high (h : windowOf a = .high) : route s a = highTarget s.highsel a.toNat := by
  simp only [route, h]

theorem route_top (h : windowOf a = .top) : route s a = .ram a.toNat := by
  simp only [route, h]

end route

/-- An address's target depends on its own window's selection alone, and in the top window on none (R40). -/
theorem route_congr (s t : State) (a : Addr) :
    (windowOf a = .low → s.lowsel = t.lowsel → route s a = route t a) ∧
    (windowOf a = .mid → s.midsel = t.midsel → route s a = route t a) ∧
    (windowOf a = .high → s.highsel = t.highsel → route s a = route t a) ∧
    (windowOf a = .top → route s a = route t a) :=
  ⟨fun hw hsel => by rw [route_low s hw, route_low t hw, hsel],
    fun hw hsel => by rw [route_mid s hw, route_mid t hw, hsel],
    fun hw hsel => by rw [route_high s hw, route_high t hw, hsel],
    fun hw => by rw [route_top s hw, route_top t hw]⟩

/-- The selections are the only translation state (R54). -/
theorem State.SameMapping.route_eq {s t : State} (h : s.SameMapping t) (a : Addr) : route t a = route s a := by
  obtain ⟨hlow, hmid, hhigh⟩ := h
  obtain ⟨low, mid, high, top⟩ := route_congr t s a
  cases hw : windowOf a with
  | low => exact low hw hlow
  | mid => exact mid hw hmid
  | high => exact high hw hhigh
  | top => exact top hw

/-! ## Operations that keep the selections -/

@[simp] theorem targetWrite_lowsel (s : State) (t : Target) (d : Byte) : (targetWrite s t d).lowsel = s.lowsel :=
  targetWrite_keeps State.lowsel ramWrite_lowsel vramWrite_lowsel s t d

@[simp] theorem targetWrite_midsel (s : State) (t : Target) (d : Byte) : (targetWrite s t d).midsel = s.midsel :=
  targetWrite_keeps State.midsel ramWrite_midsel vramWrite_midsel s t d

@[simp] theorem targetWrite_highsel (s : State) (t : Target) (d : Byte) : (targetWrite s t d).highsel = s.highsel :=
  targetWrite_keeps State.highsel ramWrite_highsel vramWrite_highsel s t d

/-- Answering keeps the mapping. -/
theorem sameMapping_respond (s : State) (r : Answer) : s.SameMapping (respond s r) := ⟨rfl, rfl, rfl⟩

/-- A memory write keeps the mapping. -/
theorem sameMapping_respond_targetWrite (s : State) (t : Target) (d : Byte) (r : Answer) :
    s.SameMapping (respond (targetWrite s t d) r) :=
  ⟨targetWrite_lowsel s t d, targetWrite_midsel s t d, targetWrite_highsel s t d⟩

/-- Setting the MMR to the value it holds resolves nothing, even where the mapping is not that of the MMR (R82). -/
theorem setMmr_self (s : State) : setMmr s s.mmr = s := if_pos rfl

/-! ## The statements -/

/-- Settles O25: the windows leave no gap and do not overlap, and each gives its target from its own selection. -/
theorem windowsTileTheSpace : Obligations.WindowsTileTheSpace :=
  ⟨windowOf_eq_iff, ⟨rfl, rfl, rfl, rfl⟩, windowOf_bounds, route_congr⟩

/-- Settles O39, by what an operation that completes can have done: an answer, a memory write and an MMR write of the
MMR's own value keep the selections, which leaves a reset and an MMR write of another value. -/
theorem onlyResolutionChangesSelections : Obligations.OnlyResolutionChangesSelections := by
  refine ⟨fun s t => State.SameMapping.route_eq, fun i s t h hne => ?_⟩
  obtain ⟨r, rfl⟩ | ⟨a, d, rfl, -, rfl⟩ | ⟨v, rfl, rfl⟩ | ⟨rfl, rfl⟩ := exec_next_cases h
  · exact absurd (sameMapping_respond s r) hne
  · exact absurd (sameMapping_respond_targetWrite s (route s a) d .none) hne
  · refine .inr ⟨v, rfl, ?_⟩
    rintro rfl
    rw [setMmr_self] at hne
    exact hne (sameMapping_respond s .none)
  · exact .inl rfl

end Sys2Proof.Machine
end

section
/-! The statements of 40_mmr_register.md: the request word that names an MMR write, and what an MMR write of another
value than the MMR's leaves behind. -/

namespace Sys2Proof

/-! ## The fields of a packed request word (R60, R64) -/

section packReq
variable (op : BitVec 2) (a : Addr) (d : Byte)

@[simp] theorem reqOp_packReq : reqOp (packReq op a d) = op :=
  calc (op ++ a ++ d).extractLsb' 24 2
      = (op ++ a).extractLsb' 16 2 := BitVec.extractLsb'_append_eq_of_le (by decide)
    _ = op := BitVec.extractLsb'_append_eq_left

@[simp] theorem reqA_packReq : reqA (packReq op a d) = a :=
  calc (op ++ a ++ d).extractLsb' 8 16
      = (op ++ a).extractLsb' 0 16 := BitVec.extractLsb'_append_eq_of_le (by decide)
    _ = a := BitVec.extractLsb'_append_eq_right

@[simp] theorem reqD_packReq : reqD (packReq op a d) = d :=
  BitVec.extractLsb'_append_eq_right (a := op ++ a)

end packReq

/-- The high byte of an I/O address is no part of the port (R64). -/
@[simp] theorem portOf_append (hi : Byte) (p : Port) : portOf (hi ++ p) = p :=
  BitVec.extractLsb'_append_eq_right

/-- An I/O write to the block's own port is an MMR write of the word's data byte (R62). -/
theorem decode_busreq_mmrWr {w : ReqWord} (hop : reqOp w = 0b11#2) (hport : portOf (reqA w) = mmrPort) :
    decode (.busreq w) = .ok (.mmrWr (reqD w)) := by
  simp [decode, decodeBusreq, hop, hport]

end Sys2Proof

namespace Sys2Proof.Machine

/-! ## The diagnostic of an MMR value (R143) -/

/-- The low source of an MMR value, read off its number: bits 3:2 (R66). -/
theorem lowSource_toNat (v : Byte) : (lowSource v).toNat = v.toNat / 4 % 4 := by
  rw [lowSource, BitVec.extractLsb'_toNat, Nat.shiftRight_eq_div_pow]

/-- The low source is invalid exactly when bits 3:2 of the value are 3 (R103). -/
theorem lowSource_eq_three_iff (v : Byte) : lowSource v = 3#2 ↔ v.toNat / 4 % 4 = 3 := by
  rw [← lowSource_toNat]
  exact BitVec.toNat_inj.symm

theorem diagnosticsOf_eq (v : Byte) :
    diagnosticsOf v = if v.toNat / 4 % 4 = 3 then [.invalidLow v] else [] := by
  simp only [diagnosticsOf, lowSource_eq_three_iff]

/-! ## What an MMR write does (R81) -/

/-- Setting the MMR to another value stores it and resolves it. -/
theorem setMmr_of_ne {s : State} {v : Byte} (h : v ≠ s.mmr) : setMmr s v = resolveBanks { s with mmr := v } v :=
  if_neg h

/-- An MMR write always completes, and answers nothing. -/
theorem exec_mmrWr (s : State) (v : Byte) : exec (.mmrWr v) s = .next (respond (setMmr s v) .none) := rfl

/-! ## The statements -/

/-- Settles O11: the word's fields are those it is packed from, an MMR write of the MMR's own value sets nothing, and
one of another value stores and resolves it, with the diagnostic of its low source. -/
theorem mmrWriteComparesThenResolves : Obligations.MmrWriteComparesThenResolves := by
  refine ⟨fun hi v => ?decodes, fun s v => ⟨fun hv => ⟨.none, ?same⟩, fun hv => ⟨.none, ?other⟩⟩⟩
  case decodes =>
    have hport : portOf (reqA (packReq 0b11#2 (hi ++ 0x30#8) v)) = mmrPort := by
      rw [reqA_packReq, portOf_append, mmrPort]
    rw [decode_busreq_mmrWr (reqOp_packReq ..) hport, reqD_packReq]
  case same =>
    subst hv
    rw [exec_mmrWr, setMmr_self]
    rfl
  case other =>
    rw [exec_mmrWr, setMmr_of_ne hv, ← diagnosticsOf_eq]
    rfl

end Sys2Proof.Machine
end

section
/-! The statements of 41_bank_resolution.md: the rows of the low and the mid decoder by the number an MMR value is, and
where an address of a window is routed after an MMR write. -/

namespace Sys2Proof.Machine

/-! ## The fields of an MMR value as numbers (R66) -/

section fields
variable (v : Byte)

/-- The ROM bank is bits 1:0. -/
theorem romBank_toNat : (romBank v).toNat = v.toNat % 4 := by
  rw [romBank, BitVec.extractLsb'_toNat, Nat.shiftRight_zero]

/-- The mid source is bits 5:4. -/
theorem midSource_toNat : (midSource v).toNat = v.toNat / 16 % 4 := by
  rw [midSource, BitVec.extractLsb'_toNat, Nat.shiftRight_eq_div_pow]

theorem romBank_eq_iff (bank : BitVec 2) : romBank v = bank ↔ v.toNat % 4 = bank.toNat := by
  rw [← BitVec.toNat_inj, romBank_toNat]

theorem lowSource_eq_iff (src : BitVec 2) : lowSource v = src ↔ v.toNat / 4 % 4 = src.toNat := by
  rw [← BitVec.toNat_inj, lowSource_toNat]

theorem midSource_eq_iff (src : BitVec 2) : midSource v = src ↔ v.toNat / 16 % 4 = src.toNat := by
  rw [← BitVec.toNat_inj, midSource_toNat]

end fields

/-! ## The rows of the low decoder (R101 to R103) -/

section lowDecode
variable {c : Config} {v : Byte}

theorem lowDecode_of_source_zero (h : v.toNat / 4 % 4 = 0) : lowDecode c v = some (romDecode c (romBank v)) :=
  if_pos ((lowSource_eq_iff v 0#2).2 h)

theorem lowDecode_of_source_one (h : v.toNat / 4 % 4 = 1) : lowDecode c v = some .ramLo := by
  simp [lowDecode, (lowSource_eq_iff v 1#2).2 h]

theorem lowDecode_of_source_two (h : v.toNat / 4 % 4 = 2) : lowDecode c v = some .ramHi := by
  simp [lowDecode, (lowSource_eq_iff v 2#2).2 h]

/-- Source 3 under the policy UNMAP; under RETAIN the decoder gives KEEP. -/
theorem lowDecode_of_source_three (h : v.toNat / 4 % 4 = 3) (hp : c.invalidLowPolicy = .unmap) :
    lowDecode c v = some .unmapped := by
  simp [lowDecode, (lowSource_eq_iff v 3#2).2 h, hp]

/-- The three internal ROM banks follow one another, each as long as the low window (R102). -/
theorem lowTarget_romDecode_of_bank_lt (h : v.toNat % 4 < 3) (a : Nat) :
    lowTarget (romDecode c (romBank v)) a = .rom (v.toNat % 4 * 0x8000 + a) := by
  have hbank : v.toNat % 4 = 0 ∨ v.toNat % 4 = 1 ∨ v.toNat % 4 = 2 := by omega
  obtain h0 | h1 | h2 := hbank
  · simp [romDecode, (romBank_eq_iff v 0#2).2 h0, h0, lowTarget]
  · simp [romDecode, (romBank_eq_iff v 1#2).2 h1, h1, lowTarget]
  · simp [romDecode, (romBank_eq_iff v 2#2).2 h2, h2, lowTarget]

/-- Bank 3 is the cartridge ROM, or nothing without a cartridge (R102). -/
theorem romDecode_of_bank_three (h : v.toNat % 4 = 3) :
    romDecode c (romBank v) = if c.cartRomPresent then .cartrom else .unmapped := by
  simp [romDecode, (romBank_eq_iff v 3#2).2 h]

end lowDecode

/-! ## The rows of the mid decoder (R104, R105) -/

section midDecode
variable {c : Config} {v : Byte}

/-- A source below 3 is the number of the cell it installs. -/
theorem midDecode_of_source_lt (h : v.toNat / 16 % 4 < 3) :
    midDecode c v = .cell ⟨v.toNat / 16 % 4, h.trans (by decide)⟩ := by
  have hsrc : v.toNat / 16 % 4 = 0 ∨ v.toNat / 16 % 4 = 1 ∨ v.toNat / 16 % 4 = 2 := by omega
  obtain h0 | h1 | h2 := hsrc
  · simp [midDecode, (midSource_eq_iff v 0#2).2 h0, h0]
  · simp [midDecode, (midSource_eq_iff v 1#2).2 h1, h1]
  · simp [midDecode, (midSource_eq_iff v 2#2).2 h2, h2]

/-- Source 3 installs the expansion's cell where main RAM exceeds 64 KiB, else nothing. -/
theorem midDecode_of_source_three (h : v.toNat / 16 % 4 = 3) :
    midDecode c v = if 0x10000 < c.ramSize then .cell c.midXCell.number else .unmapped := by
  simp [midDecode, expansionPresent, (midSource_eq_iff v 3#2).2 h]

end midDecode

/-! ## Where an address is routed after an MMR write (R81, R100) -/

/-- The state an MMR write of another value leaves. -/
theorem exec_mmrWr_of_ne {s : State} {v : Byte} (h : v ≠ s.mmr) :
    exec (.mmrWr v) s = .next (respond (resolveBanks { s with mmr := v } v) .none) := by
  rw [exec_mmrWr, setMmr_of_ne h]

section resolved
variable (s : State) {v : Byte} {a : Addr}

/-- The state an MMR write leaves routes the low window by what the low decoder gives, unless that is KEEP. -/
theorem route_resolved_low {sel : LowSel} (hw : windowOf a = .low) (hsel : lowDecode s.cfg v = some sel) :
    route (respond (resolveBanks { s with mmr := v } v) .none) a = lowTarget sel a.toNat := by
  rw [route_low _ hw, respond_lowsel, resolveBanks_lowsel, hsel, Option.getD_some]

/-- The state an MMR write leaves routes the mid window by what the mid decoder gives. -/
theorem route_resolved_mid {sel : MidSel} (hw : windowOf a = .mid) (hsel : midDecode s.cfg v = sel) :
    route (respond (resolveBanks { s with mmr := v } v) .none) a = midTarget sel a.toNat := by
  rw [route_mid _ hw, respond_midsel, resolveBanks_midsel, hsel]

end resolved

/-! ## The statements -/

/-- Settles O12, row by row of the low decoder. -/
theorem lowWindowAfterMmrWrite : Obligations.LowWindowAfterMmrWrite := by
  intro s v hv
  refine ⟨_, exec_mmrWr_of_ne hv, fun a ha => ?_⟩
  have hw : windowOf a = .low := (windowOf_bounds a).1.2 ⟨Nat.zero_le _, ha⟩
  refine ⟨fun hsrc hbank => ?bank, fun hsrc hbank hcart => ?cart, fun hsrc hbank hcart => ?noCart,
    fun hsrc => ?ramLo, fun hsrc => ?ramHi, fun hsrc hpolicy => ?unmap⟩
  case bank =>
    have h := (route_resolved_low s hw (lowDecode_of_source_zero hsrc)).trans
      (lowTarget_romDecode_of_bank_lt hbank a.toNat)
    exact ⟨h, congrArg Target.right h⟩
  case cart =>
    have h := route_resolved_low s hw (lowDecode_of_source_zero hsrc)
    rw [romDecode_of_bank_three hbank, if_pos hcart] at h
    exact ⟨h, congrArg Target.right h⟩
  case noCart =>
    have h := route_resolved_low s hw (lowDecode_of_source_zero hsrc)
    rwa [romDecode_of_bank_three hbank, if_neg (by simp [hcart])] at h
  case ramLo =>
    have h := route_resolved_low s hw (lowDecode_of_source_one hsrc)
    exact ⟨h, congrArg Target.right h⟩
  case ramHi =>
    have h := route_resolved_low s hw (lowDecode_of_source_two hsrc)
    exact ⟨h, congrArg Target.right h⟩
  case unmap => exact route_resolved_low s hw (lowDecode_of_source_three hsrc hpolicy)

/-- Settles O13: a source below 3 is its cell's number, and source 3 installs the expansion's cell where the
expansion is present. -/
theorem midWindowAfterMmrWrite : Obligations.MidWindowAfterMmrWrite := by
  intro s v hv
  refine ⟨_, exec_mmrWr_of_ne hv, fun a hlo hhi => ?_⟩
  have hw : windowOf a = .mid := (windowOf_bounds a).2.1.2 ⟨hlo, hhi⟩
  refine ⟨fun hsrc => ?cell, fun hsrc hram hx => ?cell3, fun hsrc hram hx => ?cell4, fun hsrc hram => ?none⟩
  case cell => exact route_resolved_mid s hw (midDecode_of_source_lt hsrc)
  case cell3 | cell4 =>
    have h := route_resolved_mid s hw (midDecode_of_source_three hsrc)
    rw [if_pos hram, hx] at h
    exact h
  case none =>
    have h := route_resolved_mid s hw (midDecode_of_source_three hsrc)
    rwa [if_neg (Nat.not_lt.2 hram)] at h

/-- Settles O31: the top window is routed alike in every state, so also in the one an operation leaves. -/
theorem topWindowIsFixed : Obligations.TopWindowIsFixed := by
  intro s a ha
  obtain ⟨-, -, -, htop⟩ := windowOf_bounds a
  have hw : windowOf a = .top := htop.2 ⟨ha, Nat.le_of_lt_succ a.isLt⟩
  have h : route s a = .ram a.toNat := route_top s hw
  exact ⟨h, congrArg Target.right h, fun _ t _ => route_top t hw⟩

end Sys2Proof.Machine
end

section
/-! The statements of 42_window_access.md: the request words that name a memory read and a memory write, every target
of a run inside its store, and what a write through a target leaves each store reading as. -/

namespace Sys2Proof

/-! ## The request words of the memory requests (R62) -/

/-- A memory read takes its address from the word and ignores the word's data byte. -/
theorem decode_busreq_memRd {w : ReqWord} (hop : reqOp w = 0b00#2) : decode (.busreq w) = .ok (.memRd (reqA w)) := by
  simp [decode, decodeBusreq, hop]

theorem decode_busreq_memWr {w : ReqWord} (hop : reqOp w = 0b01#2) :
    decode (.busreq w) = .ok (.memWr (reqA w) (reqD w)) := by
  simp [decode, decodeBusreq, hop]

/-- Every admitted main RAM has the base 64 KiB (R27). -/
theorem Config.Admitted.baseRamSize_le {c : Config} (h : c.Admitted) : 0x10000 ≤ c.ramSize :=
  h.elim Eq.ge fun ⟨hlt, _⟩ => hlt.le

end Sys2Proof

namespace Sys2Proof.Machine

/-! ## Every target of a run lies inside its store (R127) -/

/-- A cell that a configuration can install lies inside main RAM: cells 0 to 2 in the base 64 KiB, the expansion's cell
because R27 admits no expansion that ends below it. -/
theorem cell_fits_of_midPossible {c : Config} {n : Fin 5} (hc : c.Admitted) (h : midPossible c (.cell n) = true) :
    (n.val + 1) * 0x4000 ≤ c.ramSize := by
  have hbase := hc.baseRamSize_le
  simp only [midPossible, expansionPresent, Bool.or_eq_true, Bool.and_eq_true, decide_eq_true_eq, beq_iff_eq] at h
  obtain hn | ⟨hexp, rfl⟩ := h
  · omega
  · obtain heq | ⟨-, hfit⟩ := hc
    · omega
    · exact hfit

/-- A main-RAM offset below 64 KiB lies inside every admitted main RAM. -/
theorem ram_inStore_of_lt {c : Config} {off : Nat} (hc : c.Admitted) (h : off < 0x10000) :
    (Target.ram off).inStore c = true :=
  decide_eq_true (h.trans_le hc.baseRamSize_le)

/-- Under the invariant every address is routed inside its store. -/
theorem State.Inv.route_inStore {s : State} (h : s.Inv) (a : Addr) : (route s a).inStore s.cfg = true := by
  obtain ⟨ha, hr⟩ | ⟨hlo, hhi, hr⟩ | ⟨hlo, hhi, hr⟩ | ⟨-, hr⟩ := route_cases s a <;> rw [hr]
  · cases s.lowsel with
    | rom0 | rom1 | rom2 | cartrom | unmapped =>
      exact lowTarget_inStore_of_right_ne_rw s.cfg ha (by simp [lowTarget, Target.right])
    | ramLo => exact ram_inStore_of_lt h.config (ha.trans_lt (by decide))
    | ramHi => exact ram_inStore_of_lt h.config (by omega)
  · cases hsel : s.midsel with
    | cell n =>
      have hfit := cell_fits_of_midPossible h.config (hsel ▸ h.mid)
      exact decide_eq_true (by omega)
    | unmapped => rfl
  · cases s.highsel with
    | mainram => exact ram_inStore_of_lt h.config a.isLt
    | video =>
      simp only [highTarget]
      split
      · simp only [Target.inStore, vramSize, decide_eq_true_eq]
        omega
      · rfl
  · exact ram_inStore_of_lt h.config a.isLt

/-! ## What a memory request does under the invariant -/

/-- A memory read completes and answers the byte of its target (R120). -/
theorem State.Inv.exec_memRd {s : State} (h : s.Inv) (a : Addr) :
    exec (.memRd a) s = .next (respond s (.data (targetByte s (route s a)))) :=
  accessing_inStore _ (h.route_inStore a)

/-- A memory write completes and writes through its target (R121). -/
theorem State.Inv.exec_memWr {s : State} (h : s.Inv) (a : Addr) (d : Byte) :
    exec (.memWr a d) s = .next (respond (targetWrite s (route s a) d) .none) :=
  accessing_inStore _ (h.route_inStore a)

/-! ## What the stores read as after a write through a target -/

@[simp] theorem ramRead_respond (s : State) (r : Answer) (off : Nat) : ramRead (respond s r) off = ramRead s off := rfl

@[simp] theorem vramRead_respond (s : State) (r : Answer) (off : Nat) : vramRead (respond s r) off = vramRead s off :=
  rfl

@[simp] theorem targetWrite_pending (s : State) (t : Target) (d : Byte) : (targetWrite s t d).pending = s.pending :=
  targetWrite_keeps State.pending ramWrite_pending vramWrite_pending s t d

@[simp] theorem targetWrite_diags (s : State) (t : Target) (d : Byte) : (targetWrite s t d).diags = s.diags :=
  targetWrite_keeps State.diags ramWrite_diags vramWrite_diags s t d

/-- Main RAM after a write through a target: the written byte where the target is that byte of main RAM. -/
theorem ramRead_targetWrite {s : State} {size : Nat} (h : Memory.wf size s.cfg.ramInit s.ram) (t : Target) (d : Byte)
    (off : Nat) : ramRead (targetWrite s t d) off = if t = .ram off then d else ramRead s off := by
  cases t with
  | ram o =>
    simp only [Target.ram.injEq, eq_comm (a := o)]
    exact read_write h o d off
  | rom _ | cart _ | vram _ | none => rfl

/-- Video RAM after a write through a target: the written byte where the target is that byte of video RAM. -/
theorem vramRead_targetWrite {s : State} {size : Nat} (h : Memory.wf size s.cfg.vramInit s.vram) (t : Target)
    (d : Byte) (off : Nat) : vramRead (targetWrite s t d) off = if t = .vram off then d else vramRead s off := by
  cases t with
  | vram o =>
    simp only [Target.vram.injEq, eq_comm (a := o)]
    exact read_write h o d off
  | rom _ | cart _ | ram _ | none => rfl

/-! ## The statements -/

/-- Settles O32: the target of a read lies inside its store, so the read completes and only answers the target's
byte. -/
theorem memReadAnswersRoutedByte : Obligations.MemReadAnswersRoutedByte := by
  refine ⟨fun a d => ?decodes, fun s a hs => hs.exec_memRd a⟩
  case decodes => rw [decode_busreq_memRd (reqOp_packReq ..), reqA_packReq]

/-- Settles O33: the target of a write lies inside its store, a write through a target keeps every field but the
stores, and each store reads back as written at the target's offset alone. -/
theorem memWriteChangesRoutedByte : Obligations.MemWriteChangesRoutedByte := by
  refine ⟨fun a d => ?decodes, fun s a d hs => ⟨_, hs.exec_memWr a d, ?frame⟩⟩
  case decodes => rw [decode_busreq_memWr (reqOp_packReq ..), reqA_packReq, reqD_packReq]
  case frame => simp [ramRead_targetWrite hs.ram, vramRead_targetWrite hs.vram]

/-- Settles O34: a read-only target and nothing are both not writable, so the write completes and is dropped. -/
theorem writeToReadOnlyIsDropped : Obligations.WriteToReadOnlyIsDropped := by
  intro s a d h
  have hne : (route s a).right ≠ some .rw := by
    obtain hro | hnone := h
    · simp [hro]
    · simp [hnone, Target.right]
  exact ⟨.none, exec_memWr_of_right_ne_rw hne d⟩

end Sys2Proof.Machine
end

section
/-! The statements of 60_exceptions.md: every operation completes, an invalid low source is recovered locally, and an
access to nothing, for want of a collaborator or else, is open bus. -/

namespace Sys2Proof.Machine

/-! ## Every operation completes (R140) -/

/-- The invariant says nothing of the input still pending. -/
theorem State.Inv.withPending {s : State} (h : s.Inv) (fs : List Frame) : (s.withPending fs).Inv :=
  ⟨h.config, h.low, h.mid, h.ram, h.vram⟩

/-- Only a memory request can stop, outside its store, where the invariant lets none be routed (R127). -/
theorem State.Inv.exec_completes {s : State} (h : s.Inv) (i : Instr) : ∃ t, exec i s = .next t := by
  cases i with
  | memRd a => exact ⟨_, h.exec_memRd a⟩
  | memWr a d => exact ⟨_, h.exec_memWr a d⟩
  | mmrWr v => exact ⟨_, exec_mmrWr s v⟩
  | mmrRd | ioRdNosel | ioWrNosel | reset => exact ⟨_, rfl⟩

/-- A step that serves no operation completes as well. -/
theorem State.Inv.step_completes {s : State} (h : s.Inv) : ∃ t, step s = .next t := by
  obtain ⟨-, hs⟩ | ⟨f, rest, -, -, hs⟩ | ⟨f, rest, i, -, -, hs⟩ := step_cases s <;> rw [hs]
  · exact ⟨s, rfl⟩
  · exact ⟨s.withPending rest, rfl⟩
  · exact (h.withPending rest).exec_completes i

/-! ## An access routed to nothing (R125, R126, R142) -/

/-- Nothing lies inside every store, so a read of it completes and answers open bus. -/
theorem exec_memRd_of_route_none {s : State} {a : Addr} (h : route s a = .none) :
    exec (.memRd a) s = .next (respond s (.data s.cfg.openBus)) :=
  calc exec (.memRd a) s
      = accessing s (route s a) (respond s (.data (targetByte s (route s a)))) := rfl
    _ = accessing s .none (respond s (.data s.cfg.openBus)) := by rw [h, targetByte]
    _ = .next (respond s (.data s.cfg.openBus)) := accessing_inStore _ rfl

/-- Nothing is not writable, so a write to it is dropped. -/
theorem exec_memWr_of_route_none {s : State} {a : Addr} (h : route s a = .none) (d : Byte) :
    exec (.memWr a d) s = .next (respond s .none) :=
  exec_memWr_of_right_ne_rw (by simp [h, Target.right]) d

/-! ## What resolves to nothing (R102, R103, R105) -/

section unmapped
variable {c : Config} {v : Byte}

/-- Source 3 under the policy RETAIN is KEEP: the low window stays as it is. -/
theorem lowDecode_of_source_three_retain (h : v.toNat / 4 % 4 = 3) (hp : c.invalidLowPolicy = .retain) :
    lowDecode c v = none := by
  simp [lowDecode, (lowSource_eq_iff v 3#2).2 h, hp]

/-- The cartridge ROM, selected with no cartridge present, leaves the low window empty. -/
theorem lowDecode_of_missing_cartridge (h : v.toNat % 16 = 3) (hc : c.cartRomPresent = false) :
    lowDecode c v = some .unmapped := by
  have hsrc : v.toNat / 4 % 4 = 0 := by omega
  have hbank : v.toNat % 4 = 3 := by omega
  rw [lowDecode_of_source_zero hsrc, romDecode_of_bank_three hbank, if_neg (by simp [hc])]

/-- The expansion, selected with only the base 64 KiB, leaves the mid window empty. -/
theorem midDecode_of_missing_expansion (h : v.toNat / 16 % 4 = 3) (hc : c.ramSize = 0x10000) :
    midDecode c v = .unmapped := by
  rw [midDecode_of_source_three h, if_neg (by simp [hc])]

/-- A low source that is valid emits no diagnostic, whatever it installs. -/
theorem diagnosticsOf_of_source_ne_three (h : v.toNat / 4 % 4 ≠ 3) : diagnosticsOf v = [] := by
  rw [diagnosticsOf_eq, if_neg h]

end unmapped

/-! ## The statements -/

/-- Settles O49: under the invariant every operation completes, and a step is idle or serves one operation. -/
theorem everyRequestCompletes : Obligations.EveryRequestCompletes :=
  fun _ hs => ⟨hs.exec_completes, hs.step_completes⟩

/-- Settles O35, by the two accesses routed to nothing. -/
theorem unmappedAccessIsOpenBus : Obligations.UnmappedAccessIsOpenBus :=
  fun _ _ h => ⟨exec_memRd_of_route_none h, fun d => ⟨.none, exec_memWr_of_route_none h d⟩⟩

/-- Settles O15: the resolution installs the mid and the high window whatever the low source, which gives nothing or
KEEP by the policy, and one diagnostic. -/
theorem invalidLowSourceIsNeverFatal : Obligations.InvalidLowSourceIsNeverFatal := by
  intro s v hv hsrc
  refine ⟨_, exec_mmrWr_of_ne hv, rfl, rfl, rfl, ?diagnostic, fun hpolicy => ?unmap, fun hpolicy => ?retain, rfl⟩
  case diagnostic => rw [respond_diags, resolveBanks_diags, diagnosticsOf_eq, if_pos hsrc]
  case unmap => rw [respond_lowsel, resolveBanks_lowsel, lowDecode_of_source_three hsrc hpolicy, Option.getD_some]
  case retain =>
    rw [respond_lowsel, resolveBanks_lowsel, lowDecode_of_source_three_retain hsrc hpolicy, Option.getD_none]

/-- Settles O16: the missing cartridge and the missing expansion each resolve to nothing, with no diagnostic of their
own, so the addresses of their window are routed to nothing. -/
theorem missingCollaboratorIsUnmapped : Obligations.MissingCollaboratorIsUnmapped := by
  intro s v hv
  refine ⟨_, exec_mmrWr_of_ne hv, fun hfield hcart => ?cartridge, fun hsrc hram => ?expansion⟩
  case cartridge =>
    have hlow := lowDecode_of_missing_cartridge hfield hcart
    refine ⟨?sel, ?diags, fun a ha => ?access⟩
    case sel => rw [respond_lowsel, resolveBanks_lowsel, hlow, Option.getD_some]
    case diags =>
      rw [respond_diags, resolveBanks_diags, diagnosticsOf_of_source_ne_three (by omega), List.append_nil]
    case access =>
      have hw : windowOf a = .low := (windowOf_bounds a).1.2 ⟨Nat.zero_le _, ha⟩
      exact unmappedAccessIsOpenBus _ a (route_resolved_low s hw hlow)
  case expansion =>
    have hmid := midDecode_of_missing_expansion hsrc hram
    refine ⟨?sel, fun hlow => ?diags, fun a hlo hhi => ?access⟩
    case sel => rw [respond_midsel, resolveBanks_midsel, hmid]
    case diags => rw [respond_diags, resolveBanks_diags, diagnosticsOf_of_source_ne_three hlow, List.append_nil]
    case access =>
      have hw : windowOf a = .mid := (windowOf_bounds a).2.1.2 ⟨hlo, hhi⟩
      exact unmappedAccessIsOpenBus _ a (route_resolved_mid s hw hmid)

end Sys2Proof.Machine
end

section
/-! The statement of 70_reset_and_hazards.md: a reset resolves the value 0, which installs ROM bank 0,
RAM cell 0 and main RAM under every configuration and policy. -/

namespace Sys2Proof.Machine

/-! ## What the value 0 resolves to (R101, R104, R106) -/

/-- The value 0 selects source 0 and bank 0, so neither the policy nor the cartridge is consulted. -/
@[simp] theorem lowDecode_zero (c : Config) : lowDecode c 0x00#8 = some .rom0 :=
  lowDecode_of_source_zero rfl

/-- The value 0 selects a base cell, so the expansion is not consulted. -/
@[simp] theorem midDecode_zero (c : Config) : midDecode c 0x00#8 = .cell 0 := rfl

@[simp] theorem highDecode_zero : highDecode 0x00#8 = .mainram := rfl

@[simp] theorem diagnosticsOf_zero : diagnosticsOf 0x00#8 = [] :=
  diagnosticsOf_of_source_ne_three (by decide)

/-- Resolving the value 0 sets the three selections and nothing else: it emits no diagnostic. -/
theorem resolveBanks_zero (s : State) :
    resolveBanks s 0x00#8 = { s with lowsel := .rom0, midsel := .cell 0, highsel := .mainram } := by
  simp only [resolveBanks, lowDecode_zero, Option.getD_some, midDecode_zero, highDecode_zero, diagnosticsOf_zero,
    List.append_nil]

/-! ## What a reset does (R160) -/

/-- A reset always completes, installs the mapping of 0 whatever the MMR holds, and answers nothing. -/
theorem exec_reset (s : State) :
    exec .reset s =
      .next { s with lowsel := .rom0, midsel := .cell 0, highsel := .mainram, answer := .none } :=
  calc exec .reset s
      = .next (respond (resolveBanks s 0x00#8) .none) := rfl
    _ = .next { s with lowsel := .rom0, midsel := .cell 0, highsel := .mainram, answer := .none } := by
      rw [resolveBanks_zero, respond]

/-! ## The statement -/

/-- Settles O42, by what a reset does: the state it leaves already has the selections and the answer that a second
reset sets, so that one leaves it as it is. -/
theorem resetForcesMappingOfZero : Obligations.ResetForcesMappingOfZero := by
  refine ⟨?raised, fun s => ⟨_, .none, exec_reset s, rfl, ?again⟩⟩
  case raised => rw [decode, if_pos rfl]
  case again => exact exec_reset _

end Sys2Proof.Machine
end

section
/-! The statements of 30_encoding.md: a request word is packed from its three fields, so the decoder, the encoder and
the masks of the opcode table are each read off the fields. -/

namespace Sys2Proof

/-! ## The fields of a request word (R60, R64) -/

/-- Every request word is packed from its own fields. -/
theorem packReq_reqFields (w : ReqWord) : packReq (reqOp w) (reqA w) (reqD w) = w := by
  have hA : (reqOp w ++ reqA w : BitVec 18) = w.extractLsb' 8 18 :=
    BitVec.extractLsb'_append_extractLsb'_eq_extractLsb' rfl
  calc reqOp w ++ reqA w ++ reqD w
      = w.extractLsb' 8 18 ++ w.extractLsb' 0 8 := congrArg (· ++ w.extractLsb' 0 8) hA
    _ = w.extractLsb' 0 26 := BitVec.extractLsb'_append_extractLsb'_eq_extractLsb' rfl
    _ = w := BitVec.extractLsb'_eq_self

theorem packReq_inj {op op' : BitVec 2} {a a' : Addr} {d d' : Byte} :
    packReq op a d = packReq op' a' d' ↔ op = op' ∧ a = a' ∧ d = d' := by
  refine ⟨fun h => ⟨?_, ?_, ?_⟩, fun ⟨hop, ha, hd⟩ => by rw [hop, ha, hd]⟩
  · simpa using congrArg reqOp h
  · simpa using congrArg reqA h
  · simpa using congrArg reqD h

@[simp] theorem portOf_ioAddr (p : Port) : portOf (ioAddr p) = p := portOf_append 0#8 p

theorem ioAddr_inj {p q : Port} : ioAddr p = ioAddr q ↔ p = q :=
  ⟨fun h => by simpa using congrArg portOf h, congrArg ioAddr⟩

/-! ## The decoder on each operation code (R62) -/

theorem decode_busreq_mmrRd {w : ReqWord} (hop : reqOp w = 0b10#2) (hport : portOf (reqA w) = mmrPort) :
    decode (.busreq w) = .ok .mmrRd := by
  simp [decode, decodeBusreq, hop, hport]

theorem decode_busreq_ioRdNosel {w : ReqWord} (hop : reqOp w = 0b10#2) (hport : portOf (reqA w) ≠ mmrPort) :
    decode (.busreq w) = .ok (.ioRdNosel (portOf (reqA w))) := by
  simp [decode, decodeBusreq, hop, hport]

theorem decode_busreq_ioWrNosel {w : ReqWord} (hop : reqOp w = 0b11#2) (hport : portOf (reqA w) ≠ mmrPort) :
    decode (.busreq w) = .ok (.ioWrNosel (portOf (reqA w)) (reqD w)) := by
  simp [decode, decodeBusreq, hop, hport]

/-- What a request word can decode to: one operation for each of the two memory codes, and for each of the two I/O codes
one at the block's own port and one at every other. -/
theorem decode_busreq_cases (w : ReqWord) :
    (reqOp w = 0b00#2 ∧ decode (.busreq w) = .ok (.memRd (reqA w))) ∨
    (reqOp w = 0b01#2 ∧ decode (.busreq w) = .ok (.memWr (reqA w) (reqD w))) ∨
    (reqOp w = 0b10#2 ∧ portOf (reqA w) = mmrPort ∧ decode (.busreq w) = .ok .mmrRd) ∨
    (reqOp w = 0b10#2 ∧ portOf (reqA w) ≠ mmrPort ∧ decode (.busreq w) = .ok (.ioRdNosel (portOf (reqA w)))) ∨
    (reqOp w = 0b11#2 ∧ portOf (reqA w) = mmrPort ∧ decode (.busreq w) = .ok (.mmrWr (reqD w))) ∨
    (reqOp w = 0b11#2 ∧ portOf (reqA w) ≠ mmrPort ∧
      decode (.busreq w) = .ok (.ioWrNosel (portOf (reqA w)) (reqD w))) := by
  have hcodes : ∀ op : BitVec 2, op = 0b00#2 ∨ op = 0b01#2 ∨ op = 0b10#2 ∨ op = 0b11#2 := by decide
  obtain hop | hop | hop | hop := hcodes (reqOp w)
  · exact .inl ⟨hop, decode_busreq_memRd hop⟩
  · exact .inr (.inl ⟨hop, decode_busreq_memWr hop⟩)
  · by_cases hport : portOf (reqA w) = mmrPort
    · exact .inr (.inr (.inl ⟨hop, hport, decode_busreq_mmrRd hop hport⟩))
    · exact .inr (.inr (.inr (.inl ⟨hop, hport, decode_busreq_ioRdNosel hop hport⟩)))
  · by_cases hport : portOf (reqA w) = mmrPort
    · exact .inr (.inr (.inr (.inr (.inl ⟨hop, hport, decode_busreq_mmrWr hop hport⟩))))
    · exact .inr (.inr (.inr (.inr (.inr ⟨hop, hport, decode_busreq_ioWrNosel hop hport⟩))))

/-! ## The masks over a packed word (R60, opcode table) -/

/-- A mask acts on each field of a word by its own fields. -/
theorem packReq_and (op op' : BitVec 2) (a a' : Addr) (d d' : Byte) :
    packReq op a d &&& packReq op' a' d' = packReq (op &&& op') (a &&& a') (d &&& d') := by
  rw [packReq, packReq, packReq, BitVec.and_append, BitVec.and_append]

/-- The low byte of an I/O address is its port (R64). -/
theorem addr_and_lowByte (a : Addr) : a &&& 0x00FF#16 = ioAddr (portOf a) := by
  apply BitVec.eq_of_getLsbD_eq
  intro k hk
  simp only [ioAddr, portOf, BitVec.getLsbD_and, BitVec.getLsbD_append, BitVec.getLsbD_extractLsb']
  interval_cases k <;> simp

section masks
variable (op : BitVec 2) (a : Addr) (d : Byte)

/-- The mask that clears the data byte of a memory read. -/
theorem packReq_and_dataMask : packReq op a d &&& 0x3FFFF00#26 = packReq op a 0#8 :=
  calc packReq op a d &&& 0x3FFFF00#26
      = packReq (op &&& BitVec.allOnes 2) (a &&& BitVec.allOnes 16) (d &&& 0#8) :=
        packReq_and op (.allOnes 2) a (.allOnes 16) d 0#8
    _ = packReq op a 0#8 := by rw [BitVec.and_allOnes, BitVec.and_allOnes, BitVec.and_zero]

/-- The mask that clears the high address byte of an I/O write. -/
theorem packReq_and_highMask : packReq op a d &&& 0x300FFFF#26 = packReq op (ioAddr (portOf a)) d :=
  calc packReq op a d &&& 0x300FFFF#26
      = packReq (op &&& BitVec.allOnes 2) (a &&& 0x00FF#16) (d &&& BitVec.allOnes 8) :=
        packReq_and op (.allOnes 2) a 0x00FF#16 d (.allOnes 8)
    _ = packReq op (ioAddr (portOf a)) d := by rw [BitVec.and_allOnes, BitVec.and_allOnes, addr_and_lowByte]

/-- The mask that keeps the operation code and the port, of an I/O read and of the rows of the block's own port. -/
theorem packReq_and_opPortMask : packReq op a d &&& 0x300FF00#26 = packReq op (ioAddr (portOf a)) 0#8 :=
  calc packReq op a d &&& 0x300FF00#26
      = packReq (op &&& BitVec.allOnes 2) (a &&& 0x00FF#16) (d &&& 0#8) :=
        packReq_and op (.allOnes 2) a 0x00FF#16 d 0#8
    _ = packReq op (ioAddr (portOf a)) 0#8 := by rw [BitVec.and_allOnes, addr_and_lowByte, BitVec.and_zero]

/-- The upper bit of the operation code tells I/O requests from memory requests. -/
theorem getLsbD_25_packReq : (packReq op a d).getLsbD 25 = op.getLsbD 1 := by
  simp only [packReq, BitVec.getLsbD_append]
  rfl

/-- The lower bit of the operation code tells writes from reads. -/
theorem getLsbD_24_packReq : (packReq op a d).getLsbD 24 = op.getLsbD 0 := by
  simp only [packReq, BitVec.getLsbD_append]
  rfl

end masks

/-- A row fixed by the operation code alone admits the words with that code. -/
theorem admits_opRow (m : String) (op : BitVec 2) (w : ReqWord) :
    OpcodeRow.admits ⟨m, packReq op 0#16 0#8, 0x3000000#26⟩ w = decide (reqOp w = op) := by
  have hmask : w &&& 0x3000000#26 = packReq (reqOp w) 0#16 0#8 := by
    rw [← packReq_and_opMask (reqOp w) (reqA w) (reqD w), packReq_reqFields]
  rw [OpcodeRow.admits, hmask, beq_eq_decide]
  simp [packReq_inj]

/-- A row fixed by the operation code and the port admits the words with both. -/
theorem admits_portRow (m : String) (op : BitVec 2) (p : Port) (w : ReqWord) :
    OpcodeRow.admits ⟨m, packReq op (ioAddr p) 0#8, 0x300FF00#26⟩ w =
      decide (reqOp w = op ∧ portOf (reqA w) = p) := by
  have hmask : w &&& 0x300FF00#26 = packReq (reqOp w) (ioAddr (portOf (reqA w))) 0#8 := by
    rw [← packReq_and_opPortMask (reqOp w) (reqA w) (reqD w), packReq_reqFields]
  rw [OpcodeRow.admits, hmask, beq_eq_decide]
  simp [packReq_inj, ioAddr_inj]

/-- The table's rows with their bits written by fields: two by the memory codes, two by the I/O codes at the block's own
port, two by the I/O codes alone. -/
theorem opcodeTable_eq : opcodeTable =
    [ ⟨"MEM_RD", packReq 0b00#2 0#16 0#8, 0x3000000#26⟩
    , ⟨"MEM_WR", packReq 0b01#2 0#16 0#8, 0x3000000#26⟩
    , ⟨"MMR_RD", packReq 0b10#2 (ioAddr mmrPort) 0#8, 0x300FF00#26⟩
    , ⟨"MMR_WR", packReq 0b11#2 (ioAddr mmrPort) 0#8, 0x300FF00#26⟩
    , ⟨"IO_RD_NOSEL", packReq 0b10#2 0#16 0#8, 0x3000000#26⟩
    , ⟨"IO_WR_NOSEL", packReq 0b11#2 0#16 0#8, 0x3000000#26⟩ ] := by decide

end Sys2Proof

namespace Sys2Proof.Machine

/-! ## The ignored bits of a word (R63, R64) -/

section clearIgnored
variable {w : ReqWord}

/-- The bits that `clearIgnored` looks at, by the operation code. -/
theorem clearIgnored_eq (w : ReqWord) : clearIgnored w =
    if (reqOp w).getLsbD 1 then
      if (reqOp w).getLsbD 0 then packReq (reqOp w) (ioAddr (portOf (reqA w))) (reqD w)
      else packReq (reqOp w) (ioAddr (portOf (reqA w))) 0#8
    else if (reqOp w).getLsbD 0 then w else packReq (reqOp w) (reqA w) 0#8 := by
  rw [← packReq_and_highMask _ (reqA w), ← packReq_and_opPortMask _ (reqA w) (reqD w),
    ← packReq_and_dataMask _ _ (reqD w), ← getLsbD_25_packReq _ (reqA w) (reqD w),
    ← getLsbD_24_packReq _ (reqA w) (reqD w), packReq_reqFields, clearIgnored]

theorem clearIgnored_memRd (hop : reqOp w = 0b00#2) : clearIgnored w = packReq 0b00#2 (reqA w) 0#8 := by
  rw [clearIgnored_eq, hop]; rfl

theorem clearIgnored_memWr (hop : reqOp w = 0b01#2) : clearIgnored w = packReq 0b01#2 (reqA w) (reqD w) :=
  calc clearIgnored w
      = w := by rw [clearIgnored_eq, hop]; rfl
    _ = packReq 0b01#2 (reqA w) (reqD w) := by rw [← hop, packReq_reqFields]

theorem clearIgnored_ioRd (hop : reqOp w = 0b10#2) :
    clearIgnored w = packReq 0b10#2 (ioAddr (portOf (reqA w))) 0#8 := by
  rw [clearIgnored_eq, hop]; rfl

theorem clearIgnored_ioWr (hop : reqOp w = 0b11#2) :
    clearIgnored w = packReq 0b11#2 (ioAddr (portOf (reqA w))) (reqD w) := by
  rw [clearIgnored_eq, hop]; rfl

end clearIgnored

/-- A step that serves an input is exec of the operation it decodes to. -/
theorem stepOn_of_decode {f : Frame} {i : Instr} (h : decode f = .ok i) (s : State) (rest : List Frame) :
    stepOn s f rest = exec i (s.withPending rest) := by
  simp only [stepOn, step, withPending_pending, withPending_withPending, h]

/-! ## The statements -/

/-- Settles O1, operation by operation: the encoding's fields select the operation's own arm of the decoder and give
its operands back; a `_NOSEL` operation needs its port to be another than the block's. -/
theorem decodeOfEncode : Obligations.DecodeOfEncode := by
  intro i hwf
  cases i with
  | memRd a => rw [encode, decode_busreq_memRd (reqOp_packReq ..), reqA_packReq]
  | memWr a d => rw [encode, decode_busreq_memWr (reqOp_packReq ..), reqA_packReq, reqD_packReq]
  | mmrRd => exact decode_busreq_mmrRd (reqOp_packReq ..) (by rw [reqA_packReq, portOf_ioAddr])
  | mmrWr v =>
    rw [encode, decode_busreq_mmrWr (reqOp_packReq ..) (by rw [reqA_packReq, portOf_ioAddr]), reqD_packReq]
  | ioRdNosel p =>
    have hp : p ≠ mmrPort := bne_iff_ne.1 hwf
    rw [encode, decode_busreq_ioRdNosel (reqOp_packReq ..) (by rwa [reqA_packReq, portOf_ioAddr]), reqA_packReq,
      portOf_ioAddr]
  | ioWrNosel p d =>
    have hp : p ≠ mmrPort := bne_iff_ne.1 hwf
    rw [encode, decode_busreq_ioWrNosel (reqOp_packReq ..) (by rwa [reqA_packReq, portOf_ioAddr]), reqA_packReq,
      portOf_ioAddr, reqD_packReq]
  | reset => rfl

/-- Settles O2: each operation a word can decode to is encoded from the word's fields, with 0 for the ignored ones. -/
theorem encodeOfDecode : Obligations.EncodeOfDecode := by
  intro w
  obtain ⟨hop, h⟩ | ⟨hop, h⟩ | ⟨hop, hport, h⟩ | ⟨hop, hport, h⟩ | ⟨hop, hport, h⟩ | ⟨hop, hport, h⟩ :=
    decode_busreq_cases w
  · exact ⟨_, h, rfl, by rw [clearIgnored_memRd hop, encode]⟩
  · exact ⟨_, h, rfl, by rw [clearIgnored_memWr hop, encode]⟩
  · exact ⟨_, h, rfl, by rw [clearIgnored_ioRd hop, hport, encode]⟩
  · exact ⟨_, h, bne_iff_ne.2 hport, by rw [clearIgnored_ioRd hop, encode]⟩
  · exact ⟨_, h, rfl, by rw [clearIgnored_ioWr hop, hport, encode]⟩
  · exact ⟨_, h, bne_iff_ne.2 hport, by rw [clearIgnored_ioWr hop, encode]⟩

/-- Settles O3: a word matches a row by its operation code and port, and the rows of the block's own port stand before
those of every port, as the decoder asks for the own port first. -/
theorem decodeFollowsOpcodeTable : Obligations.DecodeFollowsOpcodeTable := by
  intro w
  obtain ⟨hop, h⟩ | ⟨hop, h⟩ | ⟨hop, hport, h⟩ | ⟨hop, hport, h⟩ | ⟨hop, hport, h⟩ | ⟨hop, hport, h⟩ :=
    decode_busreq_cases w
  · exact ⟨opcodeTable[0], _, by simp [opcodeTable_eq, admits_opRow, hop], h, rfl⟩
  · exact ⟨opcodeTable[1], _, by simp [opcodeTable_eq, admits_opRow, hop], h, rfl⟩
  · exact ⟨opcodeTable[2], _, by simp [opcodeTable_eq, admits_opRow, admits_portRow, hop, hport], h, rfl⟩
  · exact ⟨opcodeTable[4], _, by simp [opcodeTable_eq, admits_opRow, admits_portRow, hop, hport], h, rfl⟩
  · exact ⟨opcodeTable[3], _, by simp [opcodeTable_eq, admits_opRow, admits_portRow, hop, hport], h, rfl⟩
  · exact ⟨opcodeTable[5], _, by simp [opcodeTable_eq, admits_opRow, admits_portRow, hop, hport], h, rfl⟩

/-- Settles O4: the fields left out of the premises are those the decoder does not read, and the port and the data
byte of a write to another port, which the decoder reads, are used by no operation. -/
theorem ignoredBitsHaveNoEffect : Obligations.IgnoredBitsHaveNoEffect := by
  intro s rest w w' hop hport haddr hdata
  obtain ⟨h, hw⟩ | ⟨h, hw⟩ | ⟨h, hp, hw⟩ | ⟨h, hp, hw⟩ | ⟨h, hp, hw⟩ | ⟨h, hp, hw⟩ := decode_busreq_cases w <;>
    rw [stepOn_of_decode hw]
  · rw [haddr (.inl h), stepOn_of_decode (decode_busreq_memRd (hop ▸ h))]
  · rw [haddr (.inr h), hdata (.inl h), stepOn_of_decode (decode_busreq_memWr (hop ▸ h))]
  · rw [stepOn_of_decode (decode_busreq_mmrRd (hop ▸ h) (hport ▸ hp))]
  · rw [hport, stepOn_of_decode (decode_busreq_ioRdNosel (hop ▸ h) (hport ▸ hp))]
  · rw [hdata (.inr ⟨h, hp⟩), stepOn_of_decode (decode_busreq_mmrWr (hop ▸ h) (hport ▸ hp))]
  · rw [stepOn_of_decode (decode_busreq_ioWrNosel (hop ▸ h) (hport ▸ hp))]
    rfl

/-- Settles O5, word by word. -/
theorem sampleWordsDecode : Obligations.SampleWordsDecode := by
  unfold Obligations.SampleWordsDecode
  decide

end Sys2Proof.Machine
end

section
/-! The statements about runs: an operation that completes keeps the invariant, so a list of operations completes and
keeps what each of them keeps, and a run serves its pending inputs in order because no operation looks at them. -/

namespace Sys2Proof.Machine

/-! ## A step (R4, R50, R61) -/

theorem step_of_decode {s : State} {f : Frame} {rest : List Frame} {i : Instr} (hp : s.pending = f :: rest)
    (hd : decode f = .ok i) : step s = exec i (s.withPending rest) := by
  simp only [step, hp, hd]

theorem step_of_noEvent {s : State} {f : Frame} {rest : List Frame} (hp : s.pending = f :: rest)
    (hd : decode f = .error .noEvent) : step s = .next (s.withPending rest) := by
  simp only [step, hp, hd]

theorem step_of_idle {s : State} (hp : s.pending = []) : step s = .next s := by
  simp only [step, hp]

/-- A request word is a frame of 32 bits (R60). -/
theorem frameOfBits_busreq (w : ReqWord) : frameOfBits 32 w.toNat = .ok (.busreq w) := by
  simp [frameOfBits, w.isLt]

/-- The run of a machine that takes a step is the run from there. -/
theorem run_succ_of_step {s t : State} (k : Nat) (h : step s = .next t) :
    Sys2Proof.core.run (k + 1) s = Sys2Proof.core.run k t := by
  simp only [Host.Core.run, core, h]

/-! ## Every operation keeps the invariant -/

section invariant
variable {s : State}

theorem State.Inv.respond (h : s.Inv) (r : Answer) : (respond s r).Inv :=
  ⟨h.config, h.low, h.mid, h.ram, h.vram⟩

/-- The MMR may hold any value (R20). -/
theorem State.Inv.withMmr (h : s.Inv) (v : Byte) : ({ s with mmr := v } : State).Inv :=
  ⟨h.config, h.low, h.mid, h.ram, h.vram⟩

/-- What a value resolves to can be installed, and a low window passed over keeps what is installed (R100). -/
theorem State.Inv.resolveBanks (h : s.Inv) (v : Byte) : (resolveBanks s v).Inv where
  config := h.config
  low := by
    rw [resolveBanks_cfg, resolveBanks_lowsel]
    cases hd : lowDecode s.cfg v with
    | none => exact h.low
    | some sel => exact lowDecode_possible s.cfg v sel hd
  mid := midDecode_possible s.cfg v
  ram := h.ram
  vram := h.vram

theorem State.Inv.setMmr (h : s.Inv) (v : Byte) : (setMmr s v).Inv := by
  obtain ⟨-, hs⟩ | ⟨-, hs⟩ := setMmr_cases s v <;> rw [hs]
  · exact h
  · exact (h.withMmr v).resolveBanks v

/-- A write through a target inside its store keeps the store's canonical form (R121). -/
theorem State.Inv.targetWrite (h : s.Inv) {t : Target} (ht : t.inStore s.cfg = true) (d : Byte) :
    (targetWrite s t d).Inv := by
  obtain ⟨off, rfl, hs⟩ | ⟨off, rfl, hs⟩ | ⟨-, hs⟩ := targetWrite_cases s t d <;> rw [hs]
  · exact ⟨h.config, h.low, h.mid, write_wf d h.ram (of_decide_eq_true ht), h.vram⟩
  · exact ⟨h.config, h.low, h.mid, h.ram, write_wf d h.vram (of_decide_eq_true ht)⟩
  · exact h

theorem State.Inv.exec_next (h : s.Inv) {i : Instr} {t : State} (ht : exec i s = .next t) : t.Inv := by
  obtain ⟨r, rfl⟩ | ⟨a, d, -, hin, rfl⟩ | ⟨v, -, rfl⟩ | ⟨-, rfl⟩ := exec_next_cases ht
  · exact h.respond r
  · exact (h.targetWrite hin d).respond .none
  · exact (h.setMmr v).respond .none
  · exact (h.resolveBanks 0x00#8).respond .none

theorem State.Inv.step_next (h : s.Inv) {t : State} (ht : step s = .next t) : t.Inv := by
  obtain ⟨-, hs⟩ | ⟨f, rest, -, -, hs⟩ | ⟨f, rest, i, -, -, hs⟩ := step_cases s <;> rw [hs] at ht
  · cases ht; exact h
  · cases ht; exact h.withPending rest
  · exact (h.withPending rest).exec_next ht

end invariant

/-- With nothing listed in either store and the mapping of 0, the invariant needs only an admitted configuration. -/
theorem powerOn_inv {c : Config} (hc : c.Admitted) : (State.powerOn c).Inv :=
  ⟨hc, rfl, rfl, wf_nil _ _, wf_nil _ _⟩

/-- Every draw of a main-RAM size stands for one that R27 admits. -/
theorem ramSizeAdmitted_admittedRamSize (x : MidXCell) (n : Nat) : ramSizeAdmitted x (admittedRamSize x n) := by
  unfold admittedRamSize
  split
  · assumption
  · exact .inl rfl

theorem admittedRamSize_of_admitted {x : MidXCell} {n : Nat} (h : ramSizeAdmitted x n) : admittedRamSize x n = n :=
  if_pos h

theorem thisHardware_admitted : Config.thisHardware.Admitted := ramSizeAdmitted_admittedRamSize _ _

/-! ## Operations served one after the other -/

theorem execAll_cons {i : Instr} {is : List Instr} {s t : State} (h : exec i s = .next t) :
    execAll (i :: is) s = execAll is t := by
  simp only [execAll, h]

/-- Under the invariant a list of operations completes, keeps the invariant, and keeps whatever each of them keeps. -/
theorem State.Inv.execAll_keeps {P : State → Prop} {is : List Instr}
    (hP : ∀ i ∈ is, ∀ s t, P s → exec i s = .next t → P t) {s : State} (h : s.Inv) (hs : P s) :
    ∃ t, execAll is s = .next t ∧ t.Inv ∧ P t := by
  induction is generalizing s with
  | nil => exact ⟨s, rfl, h, hs⟩
  | cons i is ih =>
    obtain ⟨hi, his⟩ := List.forall_mem_cons.1 hP
    obtain ⟨u, hu⟩ := h.exec_completes i
    rw [execAll_cons hu]
    exact ih his (h.exec_next hu) (hi s u hs hu)

/-! ## Operations that keep the stores -/

/-- Both stores hold the same data over the same initial contents. -/
def State.SameStores (s t : State) : Prop := t.cfg = s.cfg ∧ t.ram = s.ram ∧ t.vram = s.vram

/-- Stores that hold the same data read the same. -/
theorem State.SameStores.sameBytes {s t : State} (h : s.SameStores t) : s.SameBytes t := by
  obtain ⟨hcfg, hram, hvram⟩ := h
  exact ⟨fun off => by rw [ramRead, hcfg, hram, ramRead], fun off => by rw [vramRead, hcfg, hvram, vramRead]⟩

/-- An operation other than a memory write keeps both stores (R32). -/
theorem State.SameStores.exec_next {s u t : State} (h : s.SameStores u) {i : Instr} (hi : ∀ a d, i ≠ .memWr a d)
    (ht : exec i u = .next t) : s.SameStores t := by
  obtain ⟨hcfg, hram, hvram⟩ := h
  have hkept : t.ram = u.ram ∧ t.vram = u.vram := by
    by_contra hne
    obtain ⟨a, d, hwr⟩ := (singleWriters i u t ht).2 (not_and_or.1 hne)
    exact hi a d hwr
  obtain ⟨hram', hvram'⟩ := hkept
  exact ⟨(exec_next_cfg ht).trans hcfg, hram'.trans hram, hvram'.trans hvram⟩

/-! ## No operation looks at the inputs still pending -/

@[simp] theorem setMmr_pending (s : State) (v : Byte) : (setMmr s v).pending = s.pending := by
  obtain ⟨-, h⟩ | ⟨-, h⟩ := setMmr_cases s v <;> simp [h]

theorem exec_next_pending {i : Instr} {s t : State} (h : exec i s = .next t) : t.pending = s.pending := by
  obtain ⟨r, rfl⟩ | ⟨a, d, -, -, rfl⟩ | ⟨v, -, rfl⟩ | ⟨-, rfl⟩ := exec_next_cases h <;> simp

theorem targetWrite_withPending (s : State) (fs : List Frame) (t : Target) (d : Byte) :
    targetWrite (s.withPending fs) t d = (targetWrite s t d).withPending fs := by
  cases t <;> rfl

theorem setMmr_withPending (s : State) (fs : List Frame) (v : Byte) :
    setMmr (s.withPending fs) v = (setMmr s v).withPending fs := by
  obtain ⟨hv, h⟩ | ⟨hv, h⟩ := setMmr_cases s v <;> rw [h]
  · exact if_pos hv
  · exact if_neg hv

/-- An operation does alike with other inputs pending. -/
theorem exec_withPending {i : Instr} {s t : State} (h : exec i s = .next t) (fs : List Frame) :
    exec i (s.withPending fs) = .next (t.withPending fs) := by
  cases i with
  | memRd a =>
    obtain ⟨hin, rfl⟩ := accessing_next h
    exact accessing_inStore _ hin
  | memWr a d =>
    obtain ⟨hin, rfl⟩ := accessing_next h
    calc exec (.memWr a d) (s.withPending fs)
        = .next (respond (targetWrite (s.withPending fs) (route s a) d) .none) := accessing_inStore _ hin
      _ = .next ((respond (targetWrite s (route s a) d) .none).withPending fs) := by
        rw [targetWrite_withPending]; rfl
  | mmrWr v =>
    cases h
    rw [exec_mmrWr, setMmr_withPending]
    rfl
  | mmrRd | ioRdNosel | ioWrNosel | reset => cases h; rfl

/-! ## The statements -/

/-- Settles O47: a step is idle or serves one operation, and each of the four things an operation that completes can
have done keeps the invariant. -/
theorem stepKeepsInvariant : Obligations.StepKeepsInvariant :=
  fun _ _ hs ht => hs.step_next ht

/-- Settles O52, by induction on the requests: a step serves the first as it would be served with nothing pending, and
leaves the rest pending. -/
theorem runServesRequestsInOrder : Obligations.RunServesRequestsInOrder := by
  intro s is hs hwf hp
  induction is generalizing s with
  | nil =>
    have hidle : s.withPending [] = s := congrArg s.withPending hp.symm
    exact ⟨s, rfl, congrArg Host.Outcome.next hidle, hp, hs⟩
  | cons i is ih =>
    obtain ⟨hi, his⟩ := List.forall_mem_cons.1 hwf
    have hinv := hs.withPending (is.map encode)
    obtain ⟨u, hu⟩ := hinv.exec_completes i
    have hstep : step s = .next u := (step_of_decode hp (decodeOfEncode i hi)).trans hu
    obtain ⟨t, hrun, hall, hdone⟩ := ih u (hinv.exec_next hu) his (exec_next_pending hu)
    refine ⟨t, (run_succ_of_step is.length hstep).trans hrun, ?_, hdone⟩
    exact (execAll_cons (exec_withPending hu [])).trans hall

/-- Settles O41: an operation other than a memory write keeps both stores and the initial contents behind them, and so
does every list of them. -/
theorem hiddenBytesAreKept : Obligations.HiddenBytesAreKept := by
  intro is s hs hnowr
  have hkeeps : ∀ i ∈ is, ∀ u t, s.SameStores u → exec i u = .next t → s.SameStores t :=
    fun i hi u t hsu hu => hsu.exec_next (by rintro a d rfl; exact hnowr a d hi) hu
  obtain ⟨t, ht, -, hst⟩ := hs.execAll_keeps hkeeps ⟨rfl, rfl, rfl⟩
  have hbytes := hst.sameBytes
  obtain ⟨-, hram, hvram⟩ := hst
  exact ⟨t, ht, hram, hvram, hbytes⟩

/-- Settles O7, by the step that serves an input. -/
theorem stepRunsDecodedRequest : Obligations.StepRunsDecodedRequest :=
  fun _ _ _ _ hp hd => step_of_decode hp hd

/-- Settles O8: an input that is not raised decodes to no event. -/
theorem stepWithoutEventChangesNothing : Obligations.StepWithoutEventChangesNothing :=
  fun _ => ⟨step_of_idle, fun _ hp => step_of_noEvent hp rfl⟩

/-- Settles O9: the word stands in front of what is pending, and every word decodes to an operation. -/
theorem fetchWordIsServedNext : Obligations.FetchWordIsServedNext := by
  intro s w
  obtain ⟨i, hd, -, -⟩ := encodeOfDecode w
  refine ⟨i, ?_, ?_⟩
  · simp only [decodeTableWord, frameOfBits_busreq, hd]
  · have hfetch : s.withFetchWord 32 w.toNat = s.withPending (.busreq w :: s.pending) := by
      simp only [State.withFetchWord, frameOfBits_busreq]
    rw [hfetch, step_of_decode (withPending_pending ..) hd]
    rfl

/-- Settles O46: a draw is taken as it is or stands for the base machine, and 0x11000 ends below cell 4. -/
theorem ramSizesAreThoseAdmitted : Obligations.RamSizesAreThoseAdmitted :=
  ⟨ramSizeAdmitted_admittedRamSize, fun _ _ => admittedRamSize_of_admitted, by decide⟩

/-- Settles O48; this hardware's configuration is admitted whatever its size was drawn as. -/
theorem powerOnSatisfiesInvariant : Obligations.PowerOnSatisfiesInvariant :=
  ⟨fun _ hc => powerOn_inv hc, powerOn_inv thisHardware_admitted⟩

end Sys2Proof.Machine
end

section
/-! The statements about the mapping: which MMR value explains it, what the idioms over the MMR leave installed, and
what the request after an MMR write or a reset sees. -/

namespace Sys2Proof.Machine

/-! ## The mapping of a value (R25, R100) -/

section mapping
variable {s t : State} {v : Byte}

/-- Resolving a value installs its mapping; a low window it passes over counts as its own. -/
theorem mappingOf_resolveBanks (s : State) (v : Byte) : (resolveBanks s v).MappingOf v := by
  refine ⟨?low, rfl, rfl⟩
  rw [resolveBanks_cfg, resolveBanks_lowsel]
  cases lowDecode s.cfg v <;> rfl

/-- An MMR write of another value leaves the mapping of the value. -/
theorem mappingOf_resolved (s : State) (v : Byte) :
    (respond (resolveBanks { s with mmr := v } v) .none).MappingOf v :=
  mappingOf_resolveBanks { s with mmr := v } v

/-- The mapping of a value is a fact about the configuration and the selections alone. -/
theorem State.MappingOf.of_sameMapping (h : s.MappingOf v) (hcfg : t.cfg = s.cfg) (hst : s.SameMapping t) :
    t.MappingOf v := by
  obtain ⟨hlow, hmid, hhigh⟩ := h
  obtain ⟨htlow, htmid, hthigh⟩ := hst
  unfold State.MappingOf
  rw [hcfg, htlow, htmid, hthigh]
  exact ⟨hlow, hmid, hhigh⟩

/-- What keeps the configuration, the MMR and the selections keeps the mapping explained. -/
theorem State.MappingExplained.of_sameMapping (h : s.MappingExplained) (hcfg : t.cfg = s.cfg) (hmmr : t.mmr = s.mmr)
    (hst : s.SameMapping t) : t.MappingExplained := by
  unfold State.MappingExplained
  rw [hmmr]
  exact h.imp (·.of_sameMapping hcfg hst) (·.of_sameMapping hcfg hst)

/-- A reset is explained by 0, an MMR write of another value by that value, and nothing else moves a selection. -/
theorem State.MappingExplained.exec_next (h : s.MappingExplained) {i : Instr} (ht : exec i s = .next t) :
    t.MappingExplained := by
  obtain ⟨r, rfl⟩ | ⟨a, d, -, -, rfl⟩ | ⟨v, -, rfl⟩ | ⟨-, rfl⟩ := exec_next_cases ht
  · exact h.of_sameMapping rfl rfl (sameMapping_respond s r)
  · exact h.of_sameMapping (targetWrite_cfg ..) (targetWrite_mmr ..) (sameMapping_respond_targetWrite ..)
  · obtain ⟨-, hs⟩ | ⟨-, hs⟩ := setMmr_cases s v <;> rw [hs]
    · exact h.of_sameMapping rfl rfl (sameMapping_respond s .none)
    · exact .inl (mappingOf_resolved s v)
  · exact .inr (mappingOf_resolveBanks s 0x00#8)

theorem State.MappingExplained.step_next (h : s.MappingExplained) (ht : step s = .next t) : t.MappingExplained := by
  obtain ⟨-, hs⟩ | ⟨f, rest, -, -, hs⟩ | ⟨f, rest, i, -, -, hs⟩ := step_cases s <;> rw [hs] at ht
  · cases ht; exact h
  · cases ht; exact h.of_sameMapping rfl rfl ⟨rfl, rfl, rfl⟩
  · exact State.MappingExplained.exec_next (s := s.withPending rest) (h.of_sameMapping rfl rfl ⟨rfl, rfl, rfl⟩) ht

/-- The mapping after power-on is that of 0. -/
theorem powerOn_mappingOf_zero (c : Config) : (State.powerOn c).MappingOf 0x00#8 := by
  refine ⟨?low, rfl, rfl⟩
  rw [powerOn_cfg, lowDecode_zero, Option.getD_some, powerOn_lowsel]

end mapping

/-! ## Bit 7 (R66) -/

section bitSeven
variable (v : Byte)

theorem xor_bit_seven_ne : v ≠ v ^^^ 0x80#8 := by
  intro h
  have hzero : 0x00#8 = 0x80#8 := (BitVec.xor_right_inj v).1 (BitVec.xor_zero.trans h)
  exact absurd hzero (by decide)

@[simp] theorem lowSource_xor_bit_seven : lowSource (v ^^^ 0x80#8) = lowSource v := by
  simp [lowSource, BitVec.extractLsb'_xor]

@[simp] theorem romBank_xor_bit_seven : romBank (v ^^^ 0x80#8) = romBank v := by
  simp [romBank, BitVec.extractLsb'_xor]

@[simp] theorem midSource_xor_bit_seven : midSource (v ^^^ 0x80#8) = midSource v := by
  simp [midSource, BitVec.extractLsb'_xor]

@[simp] theorem video_xor_bit_seven : video (v ^^^ 0x80#8) = video v := by
  simp [video]

/-- No decoder looks at bit 7. -/
theorem decode_xor_bit_seven (c : Config) :
    lowDecode c (v ^^^ 0x80#8) = lowDecode c v ∧ midDecode c (v ^^^ 0x80#8) = midDecode c v ∧
      highDecode (v ^^^ 0x80#8) = highDecode v := by
  simp [lowDecode, midDecode, highDecode]

end bitSeven

/-- A value and its partner in bit 7 install the same selections, also when they are resolved in two states; the low
windows of the states matter where the value passes the low window over. -/
theorem sameMapping_resolveBanks_xor_bit_seven {s t : State} (v : Byte) (hcfg : t.cfg = s.cfg)
    (hlow : (lowDecode s.cfg v).getD t.lowsel = (lowDecode s.cfg v).getD s.lowsel) :
    (resolveBanks s v).SameMapping (resolveBanks t (v ^^^ 0x80#8)) := by
  obtain ⟨hl, hm, hh⟩ := decode_xor_bit_seven v s.cfg
  unfold State.SameMapping
  simp only [resolveBanks_lowsel, resolveBanks_midsel, resolveBanks_highsel, hcfg, hl, hm, hh, hlow, and_self]

/-! ## Setting the MMR twice (R46, R82) -/

/-- Setting the MMR to the value it holds resolves nothing. -/
theorem setMmr_of_eq {s : State} {v : Byte} (h : s.mmr = v) : setMmr s v = s := by
  rw [← h, setMmr_self]

/-- The step that serves an encoded MMR write. -/
theorem step_mmrWr {s : State} {v : Byte} {rest : List Frame} (hp : s.pending = encode (.mmrWr v) :: rest) :
    step s = .next (respond (setMmr (s.withPending rest) v) .none) :=
  (step_of_decode hp (decodeOfEncode (.mmrWr v) rfl)).trans (exec_mmrWr _ v)

/-! ## The high window after an MMR write (R106) -/

/-- The video flag is bit 6. -/
theorem video_eq (v : Byte) : video v = decide (v.toNat / 64 % 2 = 1) := by
  rw [video, ← BitVec.testBit_toNat, Nat.testBit_eq_decide_div_mod_eq]

/-- The state an MMR write leaves routes the high window by what the high decoder gives. -/
theorem route_resolved_high (s : State) {v : Byte} {a : Addr} (hw : windowOf a = .high) :
    route (respond (resolveBanks { s with mmr := v } v) .none) a = highTarget (highDecode v) a.toNat := by
  rw [route_high _ hw, respond_highsel, resolveBanks_highsel]

/-! ## The statements -/

/-- Settles O50: a step is idle or serves one operation, and an operation that moves a selection resolves the value it
leaves in the MMR, or 0. -/
theorem stepKeepsMappingExplained : Obligations.StepKeepsMappingExplained :=
  fun _ _ hs ht => hs.step_next ht

/-- Settles O51: the power-on mapping is that of 0, which is not that of 0x04, a value the MMR may hold then. -/
theorem mappingCanDifferFromMmr : Obligations.MappingCanDifferFromMmr := by
  refine ⟨fun c => .inr (powerOn_mappingOf_zero c), { State.reset with mmr := 0x04#8 },
    (powerOn_inv thisHardware_admitted).withMmr _, .inr (powerOn_mappingOf_zero _), ?differs⟩
  rintro ⟨hlow, -, -⟩
  have hram : lowDecode Config.thisHardware 0x04#8 = some .ramLo := lowDecode_of_source_one rfl
  have hlow' : (lowDecode Config.thisHardware 0x04#8).getD .rom0 = .rom0 := hlow
  rw [hram] at hlow'
  cases hlow'

/-- Settles O14, by bit 6. -/
theorem highWindowAfterMmrWrite : Obligations.HighWindowAfterMmrWrite := by
  intro s v hv
  refine ⟨_, exec_mmrWr_of_ne hv, fun a hlo hhi => ?_⟩
  have hw : windowOf a = .high := (windowOf_bounds a).2.2.1.2 ⟨hlo, hhi⟩
  rw [route_resolved_high s hw, highDecode, video_eq]
  refine ⟨fun h => ?ram, fun h ha => ?vram, fun h ha => ?hole⟩
  case ram => rw [h]; rfl
  case vram => rw [h]; exact if_pos ha
  case hole => rw [h]; exact if_neg (by omega)

/-- Settles O17: a reset keeps the MMR, so writing its value is setting it to what it holds, and another value is
resolved. -/
theorem staleMmrAfterReset : Obligations.StaleMmrAfterReset := by
  intro s
  refine ⟨_, exec_reset s, ⟨_, exec_mmrWr _ s.mmr, ?same⟩, fun v hv => ⟨_, exec_mmrWr_of_ne hv, rfl, ?other⟩⟩
  case same =>
    rw [setMmr_of_eq rfl]
    exact ⟨rfl, rfl, rfl, rfl⟩
  case other => exact mappingOf_resolved _ v

/-- Settles O18: no decoder looks at bit 7, and a low window passed over is passed over by both values. -/
theorem bitSevenSelectsNothing : Obligations.BitSevenSelectsNothing := by
  intro s v hv
  have hne : v ^^^ 0x80#8 ≠ v := (xor_bit_seven_ne v).symm
  refine ⟨_, _, exec_mmrWr_of_ne hv, exec_mmrWr_of_ne hne, rfl, ?after, fun u' hv' hu' => ?instead⟩
  case after =>
    obtain ⟨hlow, -, -⟩ := mappingOf_resolveBanks { s with mmr := v } v
    exact sameMapping_resolveBanks_xor_bit_seven (s := { s with mmr := v }) v rfl hlow
  case instead =>
    rw [exec_mmrWr_of_ne hv'] at hu'
    cases hu'
    exact sameMapping_resolveBanks_xor_bit_seven (s := { s with mmr := v }) v rfl rfl

/-- Settles O19: the first of the two writes leaves the MMR at another value than `v`, so the second resolves `v`. -/
theorem remapInstallsMapping : Obligations.RemapInstallsMapping := by
  intro s v rest
  set t := respond (setMmr (s.withPending (encode (.mmrWr v) :: rest)) (v ^^^ 0x80#8)) .none with ht
  have hfirst : step { s with pending := remap v ++ rest } = .next t := step_mmrWr rfl
  have hsecond : step t = .next (respond (setMmr (t.withPending rest) v) .none) := step_mmrWr (by simp [ht])
  have hne : v ≠ (t.withPending rest).mmr := by
    rw [withPending_mmr, ht, respond_mmr, setMmr_mmr]
    exact xor_bit_seven_ne v
  rw [setMmr_of_ne hne] at hsecond
  refine ⟨_, (run_succ_of_step 1 hfirst).trans (run_succ_of_step 0 hsecond), rfl, mappingOf_resolved _ v, ?_, ?_, rfl⟩
  · simp [ht]
  · simp [ht]

/-- Settles O20: after the first write the MMR holds the value. -/
theorem mmrWriteIsIdempotent : Obligations.MmrWriteIsIdempotent := by
  intro s v
  refine ⟨_, exec_mmrWr s v, ?again⟩
  rw [exec_mmrWr, setMmr_of_eq (by rw [respond_mmr, setMmr_mmr])]
  rfl

/-- Settles O37: the MMR write keeps the invariant, so the read after it completes in the state with the new mapping. -/
theorem nextRequestSeesNewMapping : Obligations.NextRequestSeesNewMapping := by
  intro s v a hs hv
  have hwr := exec_mmrWr_of_ne hv
  have hrd := (hs.exec_next hwr).exec_memRd a
  exact ⟨_, _, hwr, mappingOf_resolved s v, (execAll_cons hwr).trans (execAll_cons hrd), rfl⟩

/-- Settles O43, window by window; from the high window up main RAM stands at the CPU address. -/
theorem bootMapping : Obligations.BootMapping := by
  intro s
  refine ⟨_, exec_reset s, fun a => ?_⟩
  obtain ⟨low, mid, high, top⟩ := windowOf_bounds a
  refine ⟨fun ha => ?low, fun hlo hhi => ?mid, fun ha => ?above⟩
  case low => rw [route_low _ (low.2 ⟨Nat.zero_le _, ha⟩), lowTarget, Nat.zero_add]
  case mid => simp [route_mid _ (mid.2 ⟨hlo, hhi⟩), midTarget]
  case above =>
    by_cases hhi : a.toNat ≤ 0xE7FF
    · rw [route_high _ (high.2 ⟨ha, hhi⟩), highTarget]
    · exact route_top _ (top.2 ⟨by omega, Nat.le_of_lt_succ a.isLt⟩)

/-- Settles O44, by what a reset does. -/
theorem powerOnIsContentsThenReset : Obligations.PowerOnIsContentsThenReset :=
  fun _ _ _ _ => exec_reset _

/-- Settles O10; the read only answers. -/
theorem mmrReadAnswersStoredValue : Obligations.MmrReadAnswersStoredValue := fun _ => rfl

/-- Settles O21; both only answer. -/
theorem otherPortsChangeNothing : Obligations.OtherPortsChangeNothing := fun _ _ _ => ⟨rfl, rfl⟩

/-- Settles O22; the invariant is needed for the memory write alone, which could stop outside its store. -/
theorem writesAnswerNoByte : Obligations.WritesAnswerNoByte :=
  fun s hs => ⟨fun a d => ⟨_, hs.exec_memWr a d, rfl⟩, fun v => ⟨_, exec_mmrWr s v, rfl⟩, ⟨_, exec_reset s, rfl⟩⟩

end Sys2Proof.Machine
end

section
/-! The statements about the translation: the window by address bits, the distance kept within a window, and the
main-RAM offsets an address reaches, which are the rows of the table of aliases. -/

namespace Sys2Proof.Machine

/-! ## The window by address bits (R68) -/

/-- One bit of an address, read off its number. -/
theorem getLsbD_eq_false_iff (a : Addr) (i : Nat) : a.getLsbD i = false ↔ a.toNat / 2 ^ i % 2 = 0 := by
  rw [← BitVec.testBit_toNat, Nat.testBit_eq_decide_div_mod_eq, decide_eq_false_iff_not]
  omega

/-- The top five bits of an address at or above 0xC000 say whether it is below 0xE800. -/
theorem extractLsb'_le_iff (a : Addr) : a.extractLsb' 11 3 ≤ 0b100#3 ↔ a.toNat / 2 ^ 11 % 8 ≤ 4 := by
  rw [BitVec.le_def, BitVec.extractLsb'_toNat, Nat.shiftRight_eq_div_pow]
  rfl

theorem windowOfBits_eq_windowOf (a : Addr) : windowOfBits a = windowOf a := by
  have ha := a.isLt
  obtain ⟨low, mid, high, top⟩ := windowOf_bounds a
  simp only [windowOfBits, getLsbD_eq_false_iff, extractLsb'_le_iff]
  split_ifs with h15 h14 h11
  · exact (low.2 (by omega)).symm
  · exact (mid.2 (by omega)).symm
  · exact (high.2 (by omega)).symm
  · exact (top.2 (by omega)).symm

/-! ## Distances within a window (R124) -/

/-- The target `n` bytes further up in the same store. -/
def Target.up (n : Nat) : Target → Target
  | .rom off => .rom (off + n)
  | .cart off => .cart (off + n)
  | .ram off => .ram (off + n)
  | .vram off => .vram (off + n)
  | .none => .none

theorem lowTarget_add (sel : LowSel) (a n : Nat) : lowTarget sel (a + n) = (lowTarget sel a).up n := by
  cases sel <;> simp [lowTarget, Target.up, Nat.add_assoc]

theorem midTarget_add (sel : MidSel) {a : Nat} (ha : 0x8000 ≤ a) (n : Nat) :
    midTarget sel (a + n) = (midTarget sel a).up n := by
  cases sel with
  | cell k =>
    simp only [midTarget, Target.up, Target.ram.injEq]
    omega
  | unmapped => rfl

/-- In the high window going up can leave video RAM, for the hole above it, but not come back. -/
theorem highTarget_add (sel : HighSel) {a : Nat} (ha : 0xC000 ≤ a) (n : Nat) :
    highTarget sel (a + n) = .none ∨ highTarget sel (a + n) = (highTarget sel a).up n := by
  cases sel with
  | mainram => exact .inr rfl
  | video =>
    by_cases h : a + n ≤ 0xDFFF
    · have hle : a ≤ 0xDFFF := by omega
      simp only [highTarget, if_pos h, if_pos hle, Target.up, Target.vram.injEq]
      omega
    · exact .inl (if_neg h)

/-- Within a window going up by a distance in the CPU space goes up by it in the store, or to nothing. -/
theorem route_up (s : State) {a b : Addr} (hw : windowOf a = windowOf b) (hab : a.toNat ≤ b.toNat) :
    route s b = .none ∨ route s b = (route s a).up (b.toNat - a.toNat) := by
  obtain ⟨-, mid, high, -⟩ := windowOf_bounds a
  have hb : b.toNat = a.toNat + (b.toNat - a.toNat) := by omega
  cases h : windowOf a <;> rw [h] at hw
  case low =>
    rw [route_low s h, route_low s hw.symm, ← lowTarget_add, ← hb]
    exact .inr rfl
  case mid =>
    rw [route_mid s h, route_mid s hw.symm, ← midTarget_add _ (mid.1 h).1, ← hb]
    exact .inr rfl
  case high =>
    rw [route_high s h, route_high s hw.symm, hb, Nat.add_sub_cancel_left]
    exact highTarget_add _ (high.1 h).1 _
  case top =>
    rw [route_top s h, route_top s hw.symm, Target.up, ← hb]
    exact .inr rfl

/-! ## The main-RAM offsets a window reaches (R123) -/

theorem lowTarget_eq_ram_iff (sel : LowSel) (a off : Nat) :
    lowTarget sel a = .ram off ↔ (sel = .ramLo ∧ a = off) ∨ (sel = .ramHi ∧ 0x8000 + a = off) := by
  cases sel <;> simp [lowTarget]

theorem midTarget_eq_ram_iff (sel : MidSel) (a off : Nat) :
    midTarget sel a = .ram off ↔ ∃ n, sel = .cell n ∧ n.val * 0x4000 + (a - 0x8000) = off := by
  cases sel <;> simp [midTarget]

theorem highTarget_eq_ram_iff (sel : HighSel) (a off : Nat) :
    highTarget sel a = .ram off ↔ sel = .mainram ∧ a = off := by
  cases sel with
  | mainram => simp [highTarget]
  | video => by_cases h : a ≤ 0xDFFF <;> simp [highTarget, h]

/-- The table of aliases is the translation read backwards, window by window (R49). -/
theorem route_eq_ram_iff (s : State) (a : Addr) (off : Nat) : route s a = .ram off ↔ AliasRow s a.toNat off := by
  have ha := a.isLt
  obtain ⟨hhi, hr⟩ | ⟨hlo, hhi, hr⟩ | ⟨hlo, hhi, hr⟩ | ⟨hlo, hr⟩ := route_cases s a <;> rw [hr, AliasRow]
  · rw [lowTarget_eq_ram_iff]
    grind
  · rw [midTarget_eq_ram_iff]
    grind
  · rw [highTarget_eq_ram_iff]
    grind
  · rw [Target.ram.injEq]
    grind

/-- Only the last row of the table of aliases, cell 4 in the mid window, reaches beyond the base 64 KiB. -/
theorem AliasRow.lt_or_cell4 {s : State} {a off : Nat} (h : AliasRow s a off) :
    off < 0x10000 ∨ (s.midsel = .cell 4 ∧ 0x8000 ≤ a ∧ a ≤ 0xBFFF) := by
  unfold AliasRow at h
  grind

/-- Cell 4 in the mid window reaches the 16 KiB from the end of the base main RAM. -/
theorem midTarget_cell4_bounds {a off : Nat} (hlo : 0x8000 ≤ a) (hhi : a ≤ 0xBFFF)
    (h : midTarget (.cell 4) a = .ram off) : 0x10000 ≤ off ∧ off < 0x14000 := by
  have hoff : 4 * 0x4000 + (a - 0x8000) = off := Target.ram.inj h
  omega

theorem midXCell_number_injective : Function.Injective MidXCell.number := by
  rintro (_ | _) (_ | _) <;> decide

/-- The cell of source 3 is installed only where `MID_X_CELL` names it and with the expansion present (R105). -/
theorem midXCell_of_midPossible {c : Config} {n : Fin 5} (h : midPossible c (.cell n) = true) (hn : 2 < n.val) :
    c.midXCell.number = n ∧ 0x10000 < c.ramSize := by
  simp only [midPossible, expansionPresent, Bool.or_eq_true, Bool.and_eq_true, decide_eq_true_eq, beq_iff_eq] at h
  obtain hle | ⟨hexp, rfl⟩ := h
  · omega
  · exact ⟨rfl, hexp⟩

/-! ## The statements -/

/-- Settles O26: each bit test is a bound on the number the address is. -/
theorem windowBitsAgreeWithBounds : Obligations.WindowBitsAgreeWithBounds := by
  refine fun a => ⟨windowOfBits_eq_windowOf a, fun hw => ?_⟩
  obtain ⟨hlo, hhi⟩ := (windowOf_bounds a).2.2.1.1 hw
  rw [getLsbD_eq_false_iff]
  omega

/-- Settles O27: the higher address is routed up from the lower one's target, in the same store. -/
theorem offsetWithinBankIsKept : Obligations.OffsetWithinBankIsKept := by
  intro s a b hw hab off
  obtain hb | hb := route_up s hw hab
  · simp [hb]
  · rw [hb]
    cases route s a with
    | none => simp [Target.up]
    | rom o | cart o | ram o | vram o =>
      simp [Target.up]
      omega

/-- Settles O28, by the translation read backwards; the invariant allows cells 3 and 4 only as the one `MID_X_CELL`
names. -/
theorem aliasTableIsExact : Obligations.AliasTableIsExact := by
  refine ⟨route_eq_ram_iff, fun s hs => ⟨fun hsel => ?cell3, fun hsel => ?cell4⟩⟩
  case cell3 =>
    obtain ⟨hcell, hram⟩ := midXCell_of_midPossible (hsel ▸ hs.mid) (by decide)
    exact ⟨midXCell_number_injective (a₂ := .cell3) hcell, hram⟩
  case cell4 =>
    obtain ⟨hcell, hram⟩ := midXCell_of_midPossible (hsel ▸ hs.mid) (by decide)
    exact ⟨midXCell_number_injective (a₂ := .cell4) hcell, hram⟩

/-- Settles O30: under the invariant every target lies inside its store, and of the rows of the table of
aliases only the last, cell 4 in the mid window, reaches beyond the base 64 KiB. -/
theorem offsetsStayInStores : Obligations.OffsetsStayInStores := by
  intro s a hs
  have hin := hs.route_inStore a
  refine ⟨fun off h => ?rom, fun off h => ?cart, fun off h => ⟨?ram, ?cell⟩, fun off h => ?vram⟩
  case rom | cart | ram | vram => simpa [h, Target.inStore] using hin
  case cell =>
    obtain ⟨-, mid, -, -⟩ := windowOf_bounds a
    split
    case isTrue hcell =>
      obtain ⟨hsel, hw⟩ := hcell
      obtain ⟨hlo, hhi⟩ := mid.1 hw
      rw [route_mid s hw, hsel] at h
      exact midTarget_cell4_bounds hlo hhi h
    case isFalse hcell =>
      obtain hlt | ⟨hsel, hlo, hhi⟩ := ((route_eq_ram_iff s a off).1 h).lt_or_cell4
      · exact hlt
      · exact absurd ⟨hsel, mid.2 ⟨hlo, hhi⟩⟩ hcell

end Sys2Proof.Machine
end

section
/-! The statements about memory contents, the diagnostic and the suggested codes: one store behind every address,
one list for every content, and a history that no operation looks at. -/

namespace Sys2Proof.Machine

/-! ## Canonical lists (R50) -/

theorem mem_of_cellAt {m : Memory} {off : Nat} {b : Byte} (h : cellAt m off = some b) : (off, b) ∈ m := by
  induction m with
  | nil => cases h
  | cons x m ih =>
    obtain ⟨o, c⟩ := x
    rw [cellAt] at h
    split at h
    · cases h
      rename_i ho
      rw [ho]
      exact List.mem_cons_self
    · exact List.mem_cons_of_mem _ (ih h)

/-- No listed byte equals what an unlisted offset reads as, so what is listed can be read off. -/
theorem cellAt_eq_of_read {size : Nat} {init : Image} {m : Memory} (h : Memory.wf size init m) (off : Nat) :
    cellAt m off = if Memory.read init m off = init.byte off then none else some (Memory.read init m off) := by
  unfold Memory.read
  cases hc : cellAt m off with
  | none => simp
  | some b => simp [(h.2 _ (mem_of_cellAt hc)).2]

theorem cellAt_cons_self (o : Nat) (b : Byte) (m : Memory) : cellAt ((o, b) :: m) o = some b := if_pos rfl

/-- A sorted list lists nothing below its head. -/
theorem head_le_of_cellAt {o : Nat} {b : Byte} {m : Memory} (h : ((o, b) :: m).Pairwise (fun x y => x.1 < y.1))
    {off : Nat} {c : Byte} (hc : cellAt ((o, b) :: m) off = some c) : o ≤ off := by
  obtain ⟨hx, -⟩ := List.pairwise_cons.1 h
  obtain heq | hmem := List.mem_cons.1 (mem_of_cellAt hc)
  · cases heq; exact Nat.le_refl _
  · exact (hx _ hmem).le

/-- Two sorted lists that list the same are the same: neither head can come before the other. -/
theorem sorted_ext {m m' : Memory} (h : m.Pairwise (fun x y => x.1 < y.1))
    (h' : m'.Pairwise (fun x y => x.1 < y.1)) (heq : ∀ off, cellAt m off = cellAt m' off) : m = m' := by
  induction m generalizing m' with
  | nil =>
    cases m' with
    | nil => rfl
    | cons y m' =>
      obtain ⟨o', b'⟩ := y
      exact absurd (heq o') (by simp [cellAt])
  | cons x m ih =>
    obtain ⟨o, b⟩ := x
    cases m' with
    | nil => exact absurd (heq o) (by simp [cellAt])
    | cons y m' =>
      obtain ⟨o', b'⟩ := y
      have hhead := (heq o).symm.trans (cellAt_cons_self o b m)
      have hhead' := (heq o').trans (cellAt_cons_self o' b' m')
      have ho : o = o' := Nat.le_antisymm (head_le_of_cellAt h hhead') (head_le_of_cellAt h' hhead)
      subst ho
      have hb : b' = b := Option.some.inj ((cellAt_cons_self o b' m').symm.trans hhead)
      subst hb
      obtain ⟨hx, hm⟩ := List.pairwise_cons.1 h
      obtain ⟨hx', hm'⟩ := List.pairwise_cons.1 h'
      refine congrArg _ (ih hm hm' fun off => ?_)
      by_cases hoff : off = o
      · rw [hoff, cellAt_eq_none hx, cellAt_eq_none hx']
      · simpa [cellAt, hoff] using heq off

/-! ## What a read answers (R120) -/

/-- Answering changes the byte of no target. -/
@[simp] theorem targetByte_respond (s : State) (r : Answer) (t : Target) :
    targetByte (respond s r) t = targetByte s t := by
  cases t <;> rfl

/-! ## Who emits a diagnostic (R143) -/

/-- An operation other than an MMR write emits none. -/
theorem exec_next_diags {i : Instr} {s t : State} (h : exec i s = .next t) (hi : ∀ v, i ≠ .mmrWr v) :
    t.diags = s.diags := by
  obtain ⟨r, rfl⟩ | ⟨a, d, -, -, rfl⟩ | ⟨v, rfl, -⟩ | ⟨-, rfl⟩ := exec_next_cases h
  · rfl
  · exact targetWrite_diags s (route s a) d
  · exact absurd rfl (hi v)
  · simp

/-! ## No operation looks at the diagnostic history (R143) -/

section withoutDiags
variable (s : State)

theorem targetWrite_withoutDiags (t : Target) (d : Byte) :
    targetWrite s.withoutDiags t d = (targetWrite s t d).withoutDiags := by
  cases t <;> rfl

theorem accessing_withoutDiags (t : Target) (s' : State) :
    outcomeWithoutDiags (accessing s.withoutDiags t s'.withoutDiags) = outcomeWithoutDiags (accessing s t s') := by
  unfold accessing
  have hcfg : s.withoutDiags.cfg = s.cfg := rfl
  rw [hcfg]
  split <;> rfl

/-- The events an MMR write emits are those of the value written, whatever the history holds. -/
theorem setMmr_withoutDiags (v : Byte) : (setMmr s.withoutDiags v).withoutDiags = (setMmr s v).withoutDiags := by
  obtain ⟨hv, h⟩ | ⟨hv, h⟩ := setMmr_cases s v <;> rw [h]
  · rw [setMmr_of_eq (s := s.withoutDiags) hv.symm]
    rfl
  · rw [setMmr_of_ne (s := s.withoutDiags) hv]
    rfl

/-- An operation does alike with the history left out. -/
theorem exec_withoutDiags (i : Instr) :
    outcomeWithoutDiags (exec i s.withoutDiags) = outcomeWithoutDiags (exec i s) := by
  cases i with
  | memRd a =>
    have hbyte : targetByte s.withoutDiags (route s a) = targetByte s (route s a) := by cases route s a <;> rfl
    calc outcomeWithoutDiags (exec (.memRd a) s.withoutDiags)
        = outcomeWithoutDiags (accessing s.withoutDiags (route s a)
            (respond s (.data (targetByte s.withoutDiags (route s a)))).withoutDiags) := rfl
      _ = outcomeWithoutDiags (exec (.memRd a) s) := by rw [accessing_withoutDiags, hbyte]; rfl
  | memWr a d =>
    calc outcomeWithoutDiags (exec (.memWr a d) s.withoutDiags)
        = outcomeWithoutDiags (accessing s.withoutDiags (route s a)
            (respond (targetWrite s.withoutDiags (route s a) d) .none)) := rfl
      _ = outcomeWithoutDiags (accessing s.withoutDiags (route s a)
            (respond (targetWrite s (route s a) d) .none).withoutDiags) := by rw [targetWrite_withoutDiags]; rfl
      _ = outcomeWithoutDiags (exec (.memWr a d) s) := accessing_withoutDiags ..
  | mmrWr v =>
    calc outcomeWithoutDiags (exec (.mmrWr v) s.withoutDiags)
        = .next (respond (setMmr s.withoutDiags v).withoutDiags .none) := rfl
      _ = outcomeWithoutDiags (exec (.mmrWr v) s) := by rw [setMmr_withoutDiags]; rfl
  | mmrRd | ioRdNosel | ioWrNosel | reset => rfl

/-- A step does alike with the history left out. -/
theorem step_withoutDiags : outcomeWithoutDiags (step s.withoutDiags) = outcomeWithoutDiags (step s) := by
  obtain ⟨hp, hs⟩ | ⟨f, rest, hp, hd, hs⟩ | ⟨f, rest, i, hp, hd, hs⟩ := step_cases s <;> rw [hs]
  · rw [step_of_idle (s := s.withoutDiags) hp]; rfl
  · rw [step_of_noEvent (s := s.withoutDiags) hp hd]; rfl
  · rw [step_of_decode (s := s.withoutDiags) hp hd]
    exact exec_withoutDiags (s.withPending rest) i

end withoutDiags

/-! ## The selections read back from their codes (R26) -/

/-- The low selection of a code; the unused code 7 stands for nothing installed. -/
def LowSel.ofCode (b : BitVec 3) : LowSel :=
  match b.toNat with
  | 0 => .rom0
  | 1 => .rom1
  | 2 => .rom2
  | 3 => .cartrom
  | 4 => .ramLo
  | 5 => .ramHi
  | _ => .unmapped

/-- The mid selection of a code; the unused codes stand for nothing installed. -/
def MidSel.ofCode (b : BitVec 3) : MidSel :=
  if h : b.toNat < 5 then .cell ⟨b.toNat, h⟩ else .unmapped

/-- The high selection of a code. -/
def HighSel.ofCode (b : BitVec 1) : HighSel := if b = 0#1 then .mainram else .video

theorem LowSel.ofCode_code : Function.LeftInverse LowSel.ofCode LowSel.code := by
  rintro (_ | _) <;> rfl

theorem MidSel.ofCode_code : Function.LeftInverse MidSel.ofCode MidSel.code := by
  rintro (n | _)
  · revert n; decide
  · rfl

theorem HighSel.ofCode_code : Function.LeftInverse HighSel.ofCode HighSel.code := by
  rintro (_ | _) <;> rfl

/-! ## The statements -/

/-- Settles O29: a write keeps the mapping, so the second address still reaches the byte that was written. -/
theorem aliasedWriteIsSeen : Obligations.AliasedWriteIsSeen := by
  intro s a b off d hs ha hb
  have hwr := hs.exec_memWr a d
  refine ⟨_, hwr, ?_⟩
  have hroute := (sameMapping_respond_targetWrite s (route s a) d .none).route_eq b
  have hread : ramRead (targetWrite s (route s a) d) off = d := by rw [ramRead_targetWrite hs.ram, if_pos ha]
  rw [(hs.exec_next hwr).exec_memRd b, hroute, hb, targetByte_respond, targetByte, hread]
  rfl

/-- Settles O38: the first read only answers, so the second is routed and answered as from the same state. -/
theorem twoByteReadRoutesEachByte : Obligations.TwoByteReadRoutesEachByte := by
  intro s a hs
  have hfirst := hs.exec_memRd a
  refine ⟨_, _, hfirst, (hs.exec_next hfirst).exec_memRd (a + 1), rfl, ?second, ?edges⟩
  case second => rw [respond_answer, (sameMapping_respond s _).route_eq, targetByte_respond]
  case edges =>
    exact ⟨by rintro rfl; decide, by rintro rfl; decide, by rintro rfl; decide⟩

/-- Settles O53: canonical stores that read the same list the same bytes, in the one order there is. -/
theorem equalContentsAreEqualData : Obligations.EqualContentsAreEqualData := by
  intro size init m m' h h' hread
  exact sorted_ext h.1 h'.1 fun off => by rw [cellAt_eq_of_read h, cellAt_eq_of_read h', hread]

/-- Settles O23: an MMR write of another value emits the events of that value, and every other operation none. -/
theorem diagnosticOnlyOnInvalidLow : Obligations.DiagnosticOnlyOnInvalidLow := by
  intro i s t h
  by_cases hi : ∃ v, i = .mmrWr v
  case neg =>
    have hne : ∀ v, i ≠ .mmrWr v := not_exists.1 hi
    exact .inr ⟨fun v hv => absurd hv (hne v), exec_next_diags h hne⟩
  case pos =>
    obtain ⟨v, rfl⟩ := hi
    rw [exec_mmrWr] at h
    cases h
    rw [respond_diags]
    obtain ⟨hv, hs⟩ | ⟨hv, hs⟩ := setMmr_cases s v <;> rw [hs]
    · exact .inr ⟨fun w hw => by cases hw; exact .inl hv, rfl⟩
    · rw [resolveBanks_diags, diagnosticsOf_eq]
      by_cases hsrc : v.toNat / 4 % 4 = 3
      · exact .inl ⟨v, rfl, hv, hsrc, by rw [if_pos hsrc]⟩
      · exact .inr ⟨fun w hw => by cases hw; exact .inr hsrc, by rw [if_neg hsrc, List.append_nil]⟩

/-- Settles O24: with the history left out the two states are one. -/
theorem diagnosticsAreAdvisory : Obligations.DiagnosticsAreAdvisory := fun s d =>
  calc outcomeWithoutDiags (step { s with diags := d })
      = outcomeWithoutDiags (step s.withoutDiags) := (step_withoutDiags { s with diags := d }).symm
    _ = outcomeWithoutDiags (step s) := step_withoutDiags s

/-- Settles O6: each selection can be read back from its code. -/
theorem selectionCodesAreDistinct : Obligations.SelectionCodesAreDistinct := by
  refine ⟨fun _ _ h => LowSel.ofCode_code.injective h, fun x => ?low, fun _ _ h => MidSel.ofCode_code.injective h,
    fun x => ?mid, fun _ _ h => HighSel.ofCode_code.injective h⟩
  case low => cases x <;> decide
  case mid =>
    cases x with
    | cell n => revert n; decide
    | unmapped => decide

end Sys2Proof.Machine
end
